-- ==== Sys2Proof/Word.lean ====
section
/-! DEFINITION. The widths of the block (R5, R6): data words, the `ADV` count, command and response words. -/

namespace Sys2Proof

/-- `XLEN = 64` (R5): every data value, read as an unsigned integer with bit 0 the least significant (R6).
`+`, `*`, `^^^`, `>>>`, `<<<`, `%` and `<` on it are the operators `+64`, `*64`, `^`, `>>`, `<<`, `mod` and `<u` of R7. -/
abbrev Word := BitVec 64

/-- `CNTW = 32` (R5): the count of `ADV`, the source's `n: u32`. -/
abbrev Count := BitVec 32

/-- `CMDW = 136` (R5, R34): the command word `cmd_word[135:0]`. -/
abbrev CmdWord := BitVec 136

/-- `RSPW = 68` (R5, R41): the response word `rsp_word[67:0]`. -/
abbrev RspWord := BitVec 68

/-- The generator state as one value `(seed0, seed1)`: "always read and written as a pair" (R13). -/
abbrev Seeds := Word × Word

end Sys2Proof
end

