-- ==== Sys2Proof/Syntax.lean ====
section
/-! DEFINITION. The ten commands (R37), one constructor per row of spec/opcode_table.json, and the four formats (R36). -/

namespace Sys2Proof

/-- The command formats of R36. -/
inductive Format where
  | z    -- no operand
  | a    -- one 64-bit operand
  | ab   -- two 64-bit operands
  | n    -- one 32-bit count
  deriving DecidableEq, Repr

/-- A decoded command. Operands are "unsigned 64-bit integers taken as they stand" (R35), so each is the field itself;
every operand value is legal in every used field (R38). -/
inductive Instr where
  | hash (x : Word)          -- HASH x            R50
  | ihash (x : Word)         -- IHASH x           R51
  | seedpair (s0 s1 : Word)  -- SEEDPAIR s0, s1   R61
  | seed (s : Word)          -- SEED s            R62
  | seed0 (s0 : Word)        -- SEED0 s0          R63
  | seed1 (s1 : Word)        -- SEED1 s1          R64
  | next                     -- NEXT              R54
  | adv (n : Count)          -- ADV n             R57
  | ucap (m : Word)          -- UCAP m            R69
  | cap (m : Word)           -- CAP m             R72
  deriving DecidableEq, Repr

/-- The format column of R37. -/
def Instr.format : Instr → Format
  | .hash _ => .a
  | .ihash _ => .a
  | .seedpair _ _ => .ab
  | .seed _ => .a
  | .seed0 _ => .a
  | .seed1 _ => .a
  | .next => .z
  | .adv _ => .n
  | .ucap _ => .a
  | .cap _ => .a

/-- The OP column of R37. -/
def Instr.opcode : Instr → BitVec 8
  | .hash _ => 0x10
  | .ihash _ => 0x11
  | .seedpair _ _ => 0x20
  | .seed _ => 0x21
  | .seed0 _ => 0x22
  | .seed1 _ => 0x23
  | .next => 0x30
  | .adv _ => 0x31
  | .ucap _ => 0x40
  | .cap _ => 0x41

end Sys2Proof
end

