-- ==== Sys2Proof/WellFormed.lean ====
section
/-! DEFINITION. Which command words are legal, as the match-and-mask table of R36 and R37 gives it. A decoded `Instr` needs
no check of its own, because every operand value is legal in every used field (R38); what can be ill formed is a word. -/

namespace Sys2Proof

/-- The bits a word of the format must agree in: the opcode and every reserved field (R36). -/
def Format.mask : Format → CmdWord
  | .z => 0xff_ffffffffffffffff_ffffffffffffffff
  | .a => 0xff_0000000000000000_ffffffffffffffff
  | .ab => 0xff_0000000000000000_0000000000000000
  | .n => 0xff_ffffffff00000000_ffffffffffffffff

/-- One row of the opcode map (R37). -/
structure OpRow where
  mnemonic : String
  opcode : BitVec 8
  format : Format
  deriving DecidableEq, Repr

/-- `match` of R36: "the opcode in bits 135 to 128 and zero elsewhere". -/
def OpRow.matchWord (r : OpRow) : CmdWord := r.opcode.setWidth 136 <<< 128

/-- "A word `w` is the command of a row when `w AND mask = match`" (R36). -/
def OpRow.accepts (r : OpRow) (w : CmdWord) : Bool := w &&& r.format.mask == r.matchWord

/-- The opcode map of R37. -/
def opTable : List OpRow :=
  [ ⟨"HASH", 0x10, .a⟩, ⟨"IHASH", 0x11, .a⟩,
    ⟨"SEEDPAIR", 0x20, .ab⟩, ⟨"SEED", 0x21, .a⟩, ⟨"SEED0", 0x22, .a⟩, ⟨"SEED1", 0x23, .a⟩,
    ⟨"NEXT", 0x30, .z⟩, ⟨"ADV", 0x31, .n⟩,
    ⟨"UCAP", 0x40, .a⟩, ⟨"CAP", 0x41, .a⟩ ]

/-- A word is well formed when some row accepts it; every other word is illegal (R38, R39). -/
def CmdWord.wellFormed (w : CmdWord) : Bool := opTable.any fun r => r.accepts w

end Sys2Proof
end

