-- ==== Sys2Proof/Decode.lean ====
section
/-! DEFINITION. The decoder of R40, total on all 2^136 words and rejecting by name, and the encoder, written from the
formats of R36. -/

namespace Sys2Proof

/-- `OP = cmd_word[135:128]` (R34). -/
def opField (w : CmdWord) : BitVec 8 := w.extractLsb' 128 8

/-- `A = cmd_word[127:64]` (R34). -/
def aField (w : CmdWord) : Word := w.extractLsb' 64 64

/-- `B = cmd_word[63:0]` (R34). -/
def bField (w : CmdWord) : Word := w.extractLsb' 0 64

/-- `N = A[31:0]` (R35). -/
def countOf (a : Word) : Count := a.extractLsb' 0 32

/-- `A[63:32]`, reserved in format N (R35, R36). -/
def reservedHigh (a : Word) : BitVec 32 := a.extractLsb' 32 32

/-- Why a word is illegal (R38): (a) its opcode is none of the ten; (b) a reserved field of its format is not zero. -/
inductive IllegalReason where
  | unknownOpcode (op : BitVec 8)
  | reservedNotZero (f : Format)
  deriving DecidableEq, Repr

/-- A word of format A: `B` is reserved and must be zero (R36, R38). -/
def decodeA (mk : Word → Instr) (a b : Word) : Except IllegalReason Instr :=
  if b = 0 then .ok (mk a) else .error (.reservedNotZero .a)

/-- A word of format Z: `A` and `B` are reserved and must be zero (R36, R38). -/
def decodeZ (i : Instr) (a b : Word) : Except IllegalReason Instr :=
  if a = 0 ∧ b = 0 then .ok i else .error (.reservedNotZero .z)

/-- A word of format N: `A[63:32]` and `B` are reserved and must be zero (R36, R38). -/
def decodeN (mk : Count → Instr) (a b : Word) : Except IllegalReason Instr :=
  if reservedHigh a = 0 ∧ b = 0 then .ok (mk (countOf a)) else .error (.reservedNotZero .n)

/-- `decode` by its fields: the rows of R40 in R40's order. -/
def decodeFields (op : BitVec 8) (a b : Word) : Except IllegalReason Instr :=
  if op = 0x10 then decodeA .hash a b
  else if op = 0x11 then decodeA .ihash a b
  else if op = 0x20 then .ok (.seedpair a b)
  else if op = 0x21 then decodeA .seed a b
  else if op = 0x22 then decodeA .seed0 a b
  else if op = 0x23 then decodeA .seed1 a b
  else if op = 0x30 then decodeZ .next a b
  else if op = 0x31 then decodeN .adv a b
  else if op = 0x40 then decodeA .ucap a b
  else if op = 0x41 then decodeA .cap a b
  else .error (.unknownOpcode op)

/-- The decode function of R40. -/
def decode (w : CmdWord) : Except IllegalReason Instr :=
  decodeFields (opField w) (aField w) (bField w)

/-- The three fields of R34 put in their places: `{OP, A, B}`. -/
def packWord (op : BitVec 8) (a b : Word) : CmdWord := op ++ a ++ b

/-- The contents of the field `A` (R36): the first operand, or the zero-extended count, or zero. -/
def Instr.aOperand : Instr → Word
  | .hash x => x
  | .ihash x => x
  | .seedpair s0 _ => s0
  | .seed s => s
  | .seed0 s0 => s0
  | .seed1 s1 => s1
  | .next => 0
  | .adv n => n.setWidth 64
  | .ucap m => m
  | .cap m => m

/-- The contents of the field `B` (R36): zero in every format but AB. -/
def Instr.bOperand : Instr → Word
  | .hash _ => 0
  | .ihash _ => 0
  | .seedpair _ s1 => s1
  | .seed _ => 0
  | .seed0 _ => 0
  | .seed1 _ => 0
  | .next => 0
  | .adv _ => 0
  | .ucap _ => 0
  | .cap _ => 0

/-- "`encode` (put the opcode and the operands in their fields, zero elsewhere)" (R40). -/
def encode (i : Instr) : CmdWord := packWord i.opcode i.aOperand i.bOperand

/-- The command word whose low `nbits` bits are those of `w` and whose other bits are zero, numbered as
spec/opcode_table.json numbers them (bit 0 the least significant of the 136, R6). -/
def tableWord (nbits w : Nat) : CmdWord := BitVec.ofNat 136 (w % 2 ^ nbits)

/-- What the decoder reads from a word of the opcode table. -/
def decodeTableWord (nbits w : Nat) : Option Instr := (decode (tableWord nbits w)).toOption

end Sys2Proof
end

