-- ==== Sys2Proof/Config.lean ====
section
/-! DEFINITION. What an implementation fixes and what the spec leaves open. No constant here has a body, so no proof can
see its value and every claim holds whatever it is. -/

namespace Sys2Proof

/-- DESIGN CHOICE (log 3, safe). The unspecified value of `seed0` after the `k`-th reset of a run (R23, R88, U1: "any
value"; the model "must not pick zero or any other constant"). -/
opaque Config.unspecifiedSeed0 : Nat → Word

/-- DESIGN CHOICE (log 3, safe). The unspecified value of `seed1` after the `k`-th reset of a run (R23, R88, U1). -/
opaque Config.unspecifiedSeed1 : Nat → Word

/-- DESIGN CHOICE (log 4, safe). The level `cfg_szs` is tied to when the run starts: an OPEN parameter with no default
(R5, R17, D14, U13). -/
opaque Config.strapSzs : Bool

/-- DESIGN CHOICE (log 4, safe). The level `cfg_rbs` is tied to when the run starts (R5, R17, D14, U13). -/
opaque Config.strapRbs : Bool

end Sys2Proof
end

