-- ==== Sys2Proof/Machine/State.lean ====
section
/-! DEFINITION. The state of the block as plain data (R12 to R24), the reasons a step can stop, and the state after
reset (R23, R88). -/

namespace Sys2Proof.Machine

/-- The status codes of R41 by name. The codes `0x4` to `0xf` are never produced (R41, U7), so they have no name. -/
inductive Status where
  | ok | div0 | illegal | unseeded
  deriving DecidableEq, Repr

/-- A response: the fields `STATUS` and `DATA` of the 68-bit response word (R41). -/
structure Response where
  status : Status
  data : Word
  deriving DecidableEq, Repr

/-- DESIGN CHOICE (log 2, safe). One thing the host does at the ports (R99). -/
inductive HostEvent where
  /-- `cmd_valid = 1` with `cmd_word = w`, held until the word is accepted (R92). -/
  | send (w : CmdWord)
  /-- `rsp_ready = 1`, held until a response is taken (R92). -/
  | take
  /-- `rst` asserted and released, the straps having these levels at the release (R88 to R91). -/
  | reset (szs rbs : Bool)
  /-- The levels the integrator drives on the straps out of reset (R91, U3). -/
  | straps (szs rbs : Bool)
  /-- The host does nothing for one step. -/
  | idle
  deriving DecidableEq, Repr

/-- Why the machine stops. The block itself never stops: its errors are responses (R82). -/
inductive Fault where
  /-- Raised by `step` alone, when the straps are driven to other levels while the block is out of reset. The spec has a
  model refuse such a run, "stops with a distinguished fault" (U3, R91). Safe. -/
  | strapsChangedOutOfReset
  deriving DecidableEq, Repr

/-- Why the model has no meaning for an instruction. -/
inductive Refusal where
  /-- Raised by an arm of `exec` for a command that has no meaning yet; every command has one, so nothing raises it. Safe. -/
  | notModelled (mnemonic : String)
  deriving DecidableEq, Repr

/-- The state of one block with its host. -/
structure State where
  /-- `x[0]`, the first state word (R13). -/
  seed0 : Word
  /-- `x[1]`, the second state word (R13). -/
  seed1 : Word
  /-- A generator has been constructed since reset (R15). -/
  seeded : Bool
  /-- `CFG.SZS`, the level on `cfg_szs`: substitute_zero_seed (R17). -/
  cfgSzs : Bool
  /-- `CFG.RBS`, the level on `cfg_rbs`: reject_biased_samples (R17). -/
  cfgRbs : Bool
  /-- The modulus of a `CAP` that was accepted and has not completed, between two of its attempts (R72, R21). -/
  pendingCap : Option Word
  /-- The response offered and not yet taken: `rsp_valid` and `rsp_word` (R22, R92). -/
  response : Option Response
  /-- DESIGN CHOICE (log 2): what the host does from here on, oldest first (R99). -/
  host : List HostEvent
  /-- DESIGN CHOICE (log 2): the responses the host has taken, oldest first (R98). -/
  taken : List Response
  /-- DESIGN CHOICE (log 3): how many resets fell inside the run, the index of the next unspecified seeds. -/
  resets : Nat
  deriving DecidableEq, Repr

/-- The block right after reset (R23, R88): not seeded, nothing in flight, no response pending. The seeds are unspecified
and the straps are inputs, so both are constants without a value (log 3, log 4). -/
def State.reset : State where
  seed0 := Config.unspecifiedSeed0 0
  seed1 := Config.unspecifiedSeed1 0
  seeded := false
  cfgSzs := Config.strapSzs
  cfgRbs := Config.strapRbs
  pendingCap := none
  response := none
  host := []
  taken := []
  resets := 0

end Sys2Proof.Machine
end

