-- ==== Sys2Proof/Machine/Ops.lean ====
section
/-! DEFINITION. The named operations on the state: reading and writing the registers, responding, raising an exception,
taking a response, and reset. -/

namespace Sys2Proof.Machine

/-- `STATUS` of a status code (R41). -/
def Status.code : Status → BitVec 4
  | .ok => 0x0
  | .div0 => 0x1
  | .illegal => 0x2
  | .unseeded => 0x3

/-- The status a code stands for; the codes `0x4` to `0xf` cannot come from this block and are refused (U7). -/
def Status.ofCode (c : BitVec 4) : Option Status :=
  if c = 0x0 then some .ok
  else if c = 0x1 then some .div0
  else if c = 0x2 then some .illegal
  else if c = 0x3 then some .unseeded
  else none

/-- `rsp_word = {STATUS, DATA}`: `STATUS = rsp_word[67:64]`, `DATA = rsp_word[63:0]` (R41). -/
def Response.toWord (r : Response) : RspWord := r.status.code ++ r.data

/-- The response a host reads from a response word (R41, U7). -/
def Response.ofWord (w : RspWord) : Option Response :=
  (Status.ofCode (w.extractLsb' 64 4)).map fun st => ⟨st, w.extractLsb' 0 64⟩

/-- `(x[0], x[1])` (R8, R13). -/
def State.seeds (s : State) : Seeds := (s.seed0, s.seed1)

/-- `x[0] <- p.1`, `x[1] <- p.2` (R8, R13). -/
def State.setSeeds (p : Seeds) (s : State) : State := { s with seed0 := p.1, seed1 := p.2 }

/-- `x[0] <- a`, `x[1] <- b`, `seeded <- 1`: a generator is constructed, in place of any before it (R15, R66). -/
def State.construct (a b : Word) (s : State) : State := { s with seed0 := a, seed1 := b, seeded := true }

/-- `respond(status, data)`: the response is presented on the response port (R8, R41). -/
def State.respond (st : Status) (d : Word) (s : State) : State := { s with response := some ⟨st, d⟩ }

/-- The complete list of exceptions (R76). -/
inductive Exception where
  | divisionByZero | illegalCommand | unseeded
  deriving DecidableEq, Repr

/-- The status code column of R76. -/
def Exception.status : Exception → Status
  | .divisionByZero => .div0
  | .illegalCommand => .illegal
  | .unseeded => .unseeded

/-- `raise e`: no state write, then `respond(code of e, 0)` (R8, R82). Nothing is saved, so there is nothing a return
could restore (R84). -/
def State.raise (e : Exception) (s : State) : State := s.respond e.status 0

/-- The command stays pending, or is no longer (R72). -/
def State.setPendingCap (o : Option Word) (s : State) : State := { s with pendingCap := o }

/-- `rsp_valid` (R22). -/
def State.rspValid (s : State) : Bool := s.response.isSome

/-- `rsp_word`, which has no meaning while `rsp_valid = 0` (R92, U5; log 11). -/
def State.rspWord (s : State) : Option RspWord := s.response.map Response.toWord

/-- `cmd_ready`: no command is in progress and no response waits to be taken (R93). -/
def State.cmdReady (s : State) : Bool := s.pendingCap.isNone && s.response.isNone

/-- What the host still has to do after its current event. -/
def State.setHost (h : List HostEvent) (s : State) : State := { s with host := h }

/-- The host takes the response that is offered (R92). -/
def State.takeResponse (r : Response) (s : State) : State :=
  { s with response := none, taken := s.taken ++ [r] }

/-- Reset (R88, R89): not seeded; the seeds become unspecified; the command in progress and the response not yet taken are
dropped. The straps are not affected by reset, and have at its release the levels they are driven to (R91). -/
def State.applyReset (szs rbs : Bool) (s : State) : State :=
  { s with
    seed0 := Config.unspecifiedSeed0 (s.resets + 1)
    seed1 := Config.unspecifiedSeed1 (s.resets + 1)
    seeded := false
    cfgSzs := szs
    cfgRbs := rbs
    pendingCap := none
    response := none
    resets := s.resets + 1 }

end Sys2Proof.Machine
end

