-- ==== Sys2Proof/Machine/Hash.lean ====
section
/-! DEFINITION. The hash finalizer (40_hash_finalizer.md): `xs33`, `hash`, `inverseHash`, and the commands HASH, IHASH. -/

namespace Sys2Proof.Machine

/-- `xs33(x) = x ^ (x >> 33)` (R46). -/
def xs33 (x : Word) : Word := x ^^^ (x >>> 33)

/-- `hash(x)`: three xor-shifts, two multiplies interleaved (R47, C1). -/
def hash (x : Word) : Word :=
  let a := xs33 x
  let b := a * 0xff51afd7ed558ccd
  let c := xs33 b
  let d := c * 0xc4ceb9fe1a85ec53
  let e := xs33 d
  e

/-- `inverseHash(x)`: its first multiply cancels the second of `hash`, its second the first (R48, C2). -/
def inverseHash (x : Word) : Word :=
  let a := xs33 x
  let b := a * 0x9cb4b2f8129337db
  let c := xs33 b
  let d := c * 0x4f74430c22a54005
  let e := xs33 d
  e

/-- HASH x (R50): `respond(OK, hash(A))`; no state is read or written. -/
def execHash (x : Word) (s : State) : Host.Outcome State Fault Refusal :=
  .next (s.respond .ok (hash x))

/-- IHASH x (R51): `respond(OK, inverseHash(A))`; no state is read or written. -/
def execIhash (x : Word) (s : State) : Host.Outcome State Fault Refusal :=
  .next (s.respond .ok (inverseHash x))

end Sys2Proof.Machine
end

