-- ==== Sys2Proof/Machine/Flags.lean ====
section
/-! DEFINITION. The checks a command makes. The block has no condition code (R18); its one flag is `seeded` (R15), and
`overflowed` is a temporary of one attempt (R67). -/

namespace Sys2Proof.Machine

/-- `if seeded = 0: raise Unseeded`, else go on (R79). -/
def State.ifSeeded (s : State) (goOn : State) : State :=
  if s.seeded then goOn else s.raise .unseeded

/-- `if A = 0: raise DivisionByZero`, else go on: tested before any attempt (R70, R77). -/
def State.ifModulus (s : State) (m : Word) (goOn : State) : State :=
  if m = 0 then s.raise .divisionByZero else goOn

/-- `overflowed = (bits +64 m) <u (residue +64 1)`, both sums wrapping, kept exactly as written (R67, R75). -/
def overflowTest (bits m residue : Word) : Bool := (bits + m).ult (residue + 1)

end Sys2Proof.Machine
end

