-- ==== Sys2Proof/Machine/Operands.lean ====
section
/-! DEFINITION. The operand forms (R35, R60): a 64-bit field is used as it stands, the count is zero-extended, and the
scalar seed goes through the zero-seed substitution. -/

namespace Sys2Proof.Machine

/-- `zext_64(N)` as a number of steps (R35, R57). -/
def countSteps (n : Count) : Nat := (n.setWidth 64).toNat

/-- `subst0(s)` (R60): with `CFG.SZS = 1` the scalar seed 0 becomes 2^63. -/
def subst0 (szs : Bool) (s : Word) : Word :=
  if s = 0 then (if szs then 0x8000000000000000 else s) else s

end Sys2Proof.Machine
end

