-- ==== Sys2Proof/Machine/Transition.lean ====
section
/-! DEFINITION. The state transition engine (41_state_transition.md): `advanceOne`, `advance`, and the commands NEXT, ADV. -/

namespace Sys2Proof.Machine

/-- `advanceOne(seed0, seed1)`: the new state and the 64-bit output (R53). `t` is the reassigned `s1` of the source (D29). -/
def advanceOne (p : Seeds) : Seeds × Word :=
  let s0 := p.2
  let t := p.1 ^^^ (p.1 <<< 23)
  let n0 := s0
  let n1 := t ^^^ s0 ^^^ (t >>> 17) ^^^ (s0 >>> 26)
  let out := s0 + n1
  ((n0, n1), out)

/-- `advance(n, s)`: `advanceOne` applied `n` times, outputs discarded (R56). -/
def advance : Nat → Seeds → Seeds
  | 0, p => p
  | n + 1, p => advance n (advanceOne p).1

/-- The output of the draw made after `k` earlier ones: what attempt `k + 1` of a `CAP` draws (R53, R68). -/
def drawAfter (k : Nat) (p : Seeds) : Word := (advanceOne (advance k p)).2

/-- NEXT (R54): one `advanceOne` whose output is returned. -/
def execNext (s : State) : Host.Outcome State Fault Refusal :=
  let r := advanceOne s.seeds
  .next (s.ifSeeded ((s.setSeeds r.1).respond .ok r.2))

/-- ADV n (R57): `n` steps, all outputs discarded, data 0. -/
def execAdv (n : Count) (s : State) : Host.Outcome State Fault Refusal :=
  .next (s.ifSeeded ((s.setSeeds (advance (countSteps n) s.seeds)).respond .ok 0))

end Sys2Proof.Machine
end

