-- ==== Sys2Proof/Machine/Sampler.lean ====
section
/-! DEFINITION. The capped sampler (43_capped_sampler.md): one sample, one attempt, and the commands UCAP, CAP. -/

namespace Sys2Proof.Machine

/-- The three values of `sample` (R67). -/
structure Sample where
  bits : Word
  residue : Word
  overflowed : Bool
  deriving DecidableEq, Repr

/-- `sample(raw, m)` (R67), evaluated only for `m != 0` (R70). Bit 0 of `raw` is the one discarded (C8). -/
def sample (raw m : Word) : Sample :=
  let bits := raw >>> 1
  let residue := bits % m
  ⟨bits, residue, overflowTest bits m residue⟩

/-- One attempt (R68): one `advanceOne` with the state written back, then `sample` on its output. -/
def attempt (m : Word) (s : State) : State × Sample :=
  let r := advanceOne s.seeds
  (s.setSeeds r.1, sample r.2 m)

/-- One attempt of a `CAP m` (R72): rejected when it overflowed and `CFG.RBS = 1`, and then the command stays pending with
the state advanced; otherwise the command completes with the residue. -/
def capAttempt (m : Word) (s : State) : State :=
  let r := attempt m s
  if r.2.overflowed && s.cfgRbs then r.1.setPendingCap (some m)
  else (r.1.setPendingCap none).respond .ok r.2.residue

/-- UCAP m (R69): one attempt, its residue whatever `overflowed` says. -/
def execUcap (m : Word) (s : State) : Host.Outcome State Fault Refusal :=
  let r := attempt m s
  .next (s.ifSeeded (s.ifModulus m (r.1.respond .ok r.2.residue)))

/-- CAP m (R72): the checks and the first attempt; a rejected command goes on at the next step (`blockProgress`). -/
def execCap (m : Word) (s : State) : Host.Outcome State Fault Refusal :=
  .next (s.ifSeeded (s.ifModulus m (capAttempt m s)))

end Sys2Proof.Machine
end

