-- ==== Sys2Proof/Machine/Seed.lean ====
section
/-! DEFINITION. The seed constructor (42_seed_constructor.md): the commands SEEDPAIR, SEED,
SEED0,
SEED1, one for each of the initializer forms. Each is legal in every state and replaces the generator (R66). -/

namespace Sys2Proof.Machine

/-- SEEDPAIR s0, s1 (R61): both halves verbatim. -/
def execSeedpair (s0 s1 : Word) (s : State) : Host.Outcome State Fault Refusal :=
  .next ((s.construct s0 s1).respond .ok 0)

/-- SEED s (R62): the scalar seed is expanded via the hash finalizer, `seed1` being the hash of `seed0`. The one command that
reads `CFG.SZS`. -/
def execSeed (v : Word) (s : State) : Host.Outcome State Fault Refusal :=
  let h0 := hash (subst0 s.cfgSzs v)
  let h1 := hash h0
  .next ((s.construct h0 h1).respond .ok 0)

/-- SEED0 s0 (R63): first half given, second half hashed from it; no zero-seed substitution (R60). -/
def execSeed0 (s0 : Word) (s : State) : Host.Outcome State Fault Refusal :=
  .next ((s.construct s0 (hash s0)).respond .ok 0)

/-- SEED1 s1 (R64): second half given, the first its inverse hash; the second is computed again from it, as the rule has it,
although that never changes it (C7); no zero-seed substitution (R60). -/
def execSeed1 (s1 : Word) (s : State) : Host.Outcome State Fault Refusal :=
  let h0 := inverseHash s1
  let h1 := hash h0
  .next ((s.construct h0 h1).respond .ok 0)

end Sys2Proof.Machine
end

