-- ==== Sys2Proof/Machine/Dispatch.lean ====
section
/-! DEFINITION. One arm per command (R37): each a call of its meaning. -/

namespace Sys2Proof.Machine

def exec (i : Instr) (s : State) : Host.Outcome State Fault Refusal :=
  match i with
  | .hash x => Sys2Proof.Machine.execHash x s
  | .ihash x => Sys2Proof.Machine.execIhash x s
  | .seedpair s0 s1 => Sys2Proof.Machine.execSeedpair s0 s1 s
  | .seed v => Sys2Proof.Machine.execSeed v s
  | .seed0 s0 => Sys2Proof.Machine.execSeed0 s0 s
  | .seed1 s1 => Sys2Proof.Machine.execSeed1 s1 s
  | .next => Sys2Proof.Machine.execNext s
  | .adv n => Sys2Proof.Machine.execAdv n s
  | .ucap m => Sys2Proof.Machine.execUcap m s
  | .cap m => Sys2Proof.Machine.execCap m s

end Sys2Proof.Machine
end

