-- ==== Sys2Proof/Machine/Port.lean ====
section
/-! DEFINITION. The command and response ports (70_reset_and_hazards.md): accepting a command word, the block's own
progress, and what each thing the host does brings about. `Step.lean` only calls this. -/

namespace Sys2Proof.Machine

/-- A word is accepted (R92): a legal one is executed, an illegal one raises `IllegalCommand` in every state (R38, R78). -/
def accept (w : CmdWord) (s : State) : Host.Outcome State Fault Refusal :=
  match decode w with
  | .ok i => exec i s
  | .error _ => .next (s.raise .illegalCommand)

/-- What the block does by itself: the next attempt of a pending `CAP`, the one step that is enabled then (R72). Otherwise
nothing, because "between commands its state does not change" (R99). -/
def blockProgress (s : State) : Host.Outcome State Fault Refusal :=
  match s.pendingCap with
  | some m => .next (capAttempt m s)
  | none => .next s

/-- The host holds out a word: accepted when `cmd_ready = 1`, else held while the block goes on (R92, R93). -/
def onSend (w : CmdWord) (rest : List HostEvent) (s : State) : Host.Outcome State Fault Refusal :=
  if s.cmdReady then accept w (s.setHost rest) else blockProgress s

/-- The host holds `rsp_ready = 1`: a response is taken when one is offered; while a `CAP` is pending the host waits; with
nothing to come, nothing happens (R92; log 13). -/
def onTake (rest : List HostEvent) (s : State) : Host.Outcome State Fault Refusal :=
  match s.response with
  | some r => .next ((s.takeResponse r).setHost rest)
  | none => if s.pendingCap.isSome then blockProgress s else .next (s.setHost rest)

/-- The straps are driven out of reset: they must keep their levels (R91); a run in which they change is refused (U3). -/
def onStraps (szs rbs : Bool) (rest : List HostEvent) (s : State) : Host.Outcome State Fault Refusal :=
  if szs = s.cfgSzs ∧ rbs = s.cfgRbs then .next (s.setHost rest) else .fault .strapsChangedOutOfReset

/-- One step: the next thing the host does, or the block's own progress. Reset comes first whatever is in progress (R88,
R89). -/
def portStep (s : State) : Host.Outcome State Fault Refusal :=
  match s.host with
  | [] => blockProgress s
  | .send w :: rest => onSend w rest s
  | .take :: rest => onTake rest s
  | .reset szs rbs :: rest => .next ((s.applyReset szs rbs).setHost rest)
  | .straps szs rbs :: rest => onStraps szs rbs rest s
  | .idle :: rest => blockProgress (s.setHost rest)

/-- The block idle and ready, and the host about to send `w` before whatever it was to do. -/
def State.offering (w : CmdWord) (s : State) : State :=
  { s with pendingCap := none, response := none, host := .send w :: s.host }

end Sys2Proof.Machine
end

