-- ==== Sys2Proof/Machine/Step.lean ====
section
/-! DEFINITION. One step of the machine, and a state whose next step runs a given word. -/

namespace Sys2Proof.Machine

/-- One step (R72, R92; log 1). -/
def step (s : State) : Host.Outcome State Fault Refusal := portStep s

/-- `s` with the word sent next to a block that is ready for it: the block fetches nothing, its host hands it each word
(R1, R16; log 10). -/
def State.withFetchWord (s : State) (nbits w : Nat) : State := s.offering (tableWord nbits w)

end Sys2Proof.Machine
end

