-- ==== Sys2Proof/Machine/Source.lean ====
section
/-! DEFINITION. The source's function-call surface and the command each call is (R11, R44). -/

namespace Sys2Proof.Machine

/-- The source's seed initializer, "a tagged value, one of" four forms (42_seed_constructor.md). -/
inductive SeedInitializer where
  | seedPair (a b : Word)
  | seed (s : Word)
  | seed0 (a : Word)
  | seed1 (b : Word)
  deriving DecidableEq, Repr

/-- The source's calls that R11 maps to commands. -/
inductive SourceCall where
  | new (seed : Word)
  | fromPair (seed0 seed1 : Word)
  | fromInitializer (f : SeedInitializer)
  | nextU64
  | advance (n : Count)
  | advanceOne
  | nextCappedU64 (modulus : Word)
  | uncheckedNextCappedU64 (modulus : Word)
  | hash (x : Word)
  | inverseHash (x : Word)
  deriving DecidableEq, Repr

/-- `fromInitializer(...)` (R11). -/
def SeedInitializer.command : SeedInitializer → Instr
  | .seedPair a b => .seedpair a b
  | .seed s => .seed s
  | .seed0 a => .seed0 a
  | .seed1 b => .seed1 b

/-- The command a call of the source is (R11); `advanceOne()` with its output unused is `ADV 1`. -/
def SourceCall.command : SourceCall → Instr
  | .new s => .seed s
  | .fromPair a b => .seedpair a b
  | .fromInitializer f => f.command
  | .nextU64 => .next
  | .advance n => .adv n
  | .advanceOne => .adv 1
  | .nextCappedU64 m => .cap m
  | .uncheckedNextCappedU64 m => .ucap m
  | .hash x => .hash x
  | .inverseHash x => .ihash x

end Sys2Proof.Machine
end

