-- ==== Sys2Proof/Machine/Assembler.lean ====
section
/-! DEFINITION. The textual form of a command (R43) and the pseudo-instructions (R44): from one line of characters to the
command word. What R43 leaves to the assembler (white space, the case of hexadecimal digits) is in log 15. -/

namespace Sys2Proof.Machine

/-- Why the assembler rejects a line: it "rejects anything else and never truncates" (R43). -/
inductive AsmError where
  | unknownMnemonic
  | operandCount
  | notALiteral
  | outOfRange
  deriving DecidableEq, Repr

/-- White space between the parts of a line (log 15). -/
def isBlank (c : Char) : Bool := c == ' ' || c == '\t'

/-- `cs` without the white space at both ends. -/
def trim (cs : List Char) : List Char :=
  ((cs.dropWhile isBlank).reverse.dropWhile isBlank).reverse

/-- "an optional comment from `;` to the end of the line" (R43). -/
def stripComment (cs : List Char) : List Char := cs.takeWhile (· != ';')

/-- The parts of `cs` between its commas. -/
def splitCommas : List Char → List (List Char)
  | [] => [[]]
  | c :: cs =>
    if c = ',' then [] :: splitCommas cs
    else
      match splitCommas cs with
      | [] => [[c]]
      | p :: ps => (c :: p) :: ps

/-- The digit `c` stands for in a base of at most 16 (log 15: either case of a letter). -/
def digitOf (base : Nat) (c : Char) : Option Nat :=
  let n := c.toNat
  let d := if 48 ≤ n ∧ n ≤ 57 then n - 48
    else if 97 ≤ n ∧ n ≤ 102 then n - 87
    else if 65 ≤ n ∧ n ≤ 70 then n - 55
    else 16
  if d < base then some d else none

/-- The number a string of digits stands for, after the digits read so far. -/
def digitsFrom (base : Nat) : Nat → List Char → Option Nat
  | acc, [] => some acc
  | acc, c :: cs =>
    match digitOf base c with
    | some d => digitsFrom base (acc * base + d) cs
    | none => none

/-- A number of at least one digit. -/
def digits (base : Nat) (cs : List Char) : Option Nat :=
  if cs.isEmpty then none else digitsFrom base 0 cs

/-- "a decimal literal, a `0x` hexadecimal literal, or a decimal literal with a leading `-`" (R43). -/
def literal (cs : List Char) : Option Int :=
  match cs with
  | '-' :: ds => (digits 10 ds).map fun k => -(k : Int)
  | '0' :: 'x' :: hs => (digits 16 hs).map fun k => (k : Int)
  | _ => (digits 10 cs).map fun k => (k : Int)

/-- "A 64-bit operand must lie in `[-2^63, 2^64 - 1]`"; `-k` stands for `2^64 - k` (R43). -/
def wordOperand (v : Int) : Except AsmError Word :=
  if -(2 ^ 63) ≤ v ∧ v ≤ 2 ^ 64 - 1 then .ok (BitVec.ofInt 64 v) else .error .outOfRange

/-- "the `ADV` count must lie in `[0, 2^32 - 1]`" (R43). -/
def countOperand (v : Int) : Except AsmError Count :=
  if 0 ≤ v ∧ v ≤ 2 ^ 32 - 1 then .ok (BitVec.ofInt 32 v) else .error .outOfRange

/-- A form with no operand. -/
def form0 (i : Instr) : List Int → Except AsmError Instr
  | [] => .ok i
  | _ => .error .operandCount

/-- A form with one 64-bit operand. -/
def form1 (mk : Word → Instr) : List Int → Except AsmError Instr
  | [v] => (wordOperand v).map mk
  | _ => .error .operandCount

/-- A form with two 64-bit operands. -/
def form2 (mk : Word → Word → Instr) : List Int → Except AsmError Instr
  | [v, w] =>
    match wordOperand v, wordOperand w with
    | .ok a, .ok b => .ok (mk a b)
    | _, _ => .error .outOfRange
  | _ => .error .operandCount

/-- The form with a count. -/
def formN (mk : Count → Instr) : List Int → Except AsmError Instr
  | [v] => (countOperand v).map mk
  | _ => .error .operandCount

/-- The mnemonics of R37 with the forms of R43, and the pseudo-instructions of R44, in capitals. -/
def asmTable : List (String × (List Int → Except AsmError Instr)) :=
  [ ("HASH", form1 .hash), ("IHASH", form1 .ihash),
    ("SEEDPAIR", form2 .seedpair), ("SEED", form1 .seed), ("SEED0", form1 .seed0), ("SEED1", form1 .seed1),
    ("NEXT", form0 .next), ("ADV", formN .adv),
    ("UCAP", form1 .ucap), ("CAP", form1 .cap),
    ("NEW", form1 fun s => (SourceCall.new s).command),
    ("FROMPAIR", form2 fun a b => (SourceCall.fromPair a b).command),
    ("NEXTU64", form0 SourceCall.nextU64.command),
    ("ADVANCE", formN fun n => (SourceCall.advance n).command),
    ("ADVANCEONE", form0 SourceCall.advanceOne.command),
    ("NEXTCAPPEDU64", form1 fun m => (SourceCall.nextCappedU64 m).command),
    ("UNCHECKEDNEXTCAPPEDU64", form1 fun m => (SourceCall.uncheckedNextCappedU64 m).command) ]

/-- A letter in capitals: "Mnemonics are case-insensitive" (R43). -/
def upper (c : Char) : Char :=
  if 97 ≤ c.toNat ∧ c.toNat ≤ 122 then Char.ofNat (c.toNat - 32) else c

/-- The form of a mnemonic, if the table has it. -/
def formOf (mnemonic : List Char) : Option (List Int → Except AsmError Instr) :=
  (asmTable.find? fun r => r.1.toList == mnemonic.map upper).map fun r => r.2

/-- The literals of a list of operands. -/
def literals : List (List Char) → Option (List Int)
  | [] => some []
  | p :: ps =>
    match literal (trim p), literals ps with
    | some v, some vs => some (v :: vs)
    | _, _ => none

/-- The operands that stand after the mnemonic, separated by commas. -/
def operandsOf (cs : List Char) : Option (List Int) :=
  if (trim cs).isEmpty then some [] else literals (splitCommas cs)

/-- A line without its comment and without the white space at both ends. -/
def lineBody (line : List Char) : List Char := trim (stripComment line)

/-- The mnemonic of a line, as it is written. -/
def mnemonicOf (line : List Char) : List Char := (lineBody line).takeWhile fun c => !isBlank c

/-- What follows the mnemonic of a line: the operands, with the white space before them. -/
def operandText (line : List Char) : List Char := (lineBody line).dropWhile fun c => !isBlank c

/-- The command a line stands for (R43, R44). -/
def assembleChars (line : List Char) : Except AsmError Instr :=
  match formOf (mnemonicOf line) with
  | none => .error .unknownMnemonic
  | some form =>
    match operandsOf (operandText line) with
    | none => .error .notALiteral
    | some vs => form vs

/-- "The assembler emits the word of rule R34 with every reserved field zero" (R43). -/
def assemble (line : String) : Except AsmError CmdWord := (assembleChars line.toList).map encode

end Sys2Proof.Machine
end

