-- ==== Sys2Proof/Safety.lean ====
section
/-! DEFINITION. What the claims are stated in: the invariant of the machine, a host that keeps the straps, a host that waits, what the host
can tell apart, and which attempts of a `CAP` are rejected. -/

namespace Sys2Proof.Machine

/-- `k` steps of the machine, stopping at the first fault or refusal (`Host.Core.run` of `core`, in the machine's own types;
`run_eq_core` in Laws/Run.lean). -/
def run : Nat → State → Host.Outcome State Fault Refusal
  | 0, s => .next s
  | k + 1, s =>
    match step s with
    | .next t => run k t
    | .fault r => .fault r
    | .refused r => .refused r

/-- "`DATA` with any other status: 0" (R41). -/
def Response.conforms (r : Response) : Bool := r.status == .ok || r.data == 0

/-- What a pending `CAP` implies: only a seeded block with `CFG.RBS = 1` has one, only for a modulus above 2^63, and no
response waits meanwhile (R71, R72, R73, R93). -/
def State.pendingOk (s : State) : Bool :=
  match s.pendingCap with
  | none => true
  | some m => s.seeded && s.cfgRbs && decide (0x8000000000000000 < m.toNat) && s.response.isNone

/-- The invariant: a pending `CAP` is a legal one, and every response, offered or taken, has data 0 unless it is OK. -/
def State.inv (s : State) : Bool :=
  s.pendingOk && s.response.all Response.conforms && s.taken.all Response.conforms

/-- The host's part of R91: out of reset the straps keep the levels in force; a reset may bring others. -/
def strapsKept : Bool → Bool → List HostEvent → Bool
  | _, _, [] => true
  | szs, rbs, .straps a b :: rest => a == szs && b == rbs && strapsKept szs rbs rest
  | _, _, .reset a b :: rest => strapsKept a b rest
  | szs, rbs, .send _ :: rest => strapsKept szs rbs rest
  | szs, rbs, .take :: rest => strapsKept szs rbs rest
  | szs, rbs, .idle :: rest => strapsKept szs rbs rest

/-- The host is silent, holds itself ready to take, or holds out a word: it does nothing further until the block has a
response for it or is ready for the word (R92; log 13). -/
def hostWaits : List HostEvent → Bool
  | [] => true
  | .take :: _ => true
  | .send _ :: _ => true
  | .reset _ _ :: _ => false
  | .straps _ _ :: _ => false
  | .idle :: _ => false

/-- The next thing the host does is to assert reset. -/
def State.resetNext (s : State) : Bool :=
  match s.host with
  | .reset _ _ :: _ => true
  | _ => false

/-- Two states that differ at most in the seeds of a block that is not seeded, whose values the spec leaves unspecified
(R23, U1). -/
def SameToHost (s t : State) : Prop :=
  (s.seeded = true → s.seed0 = t.seed0 ∧ s.seed1 = t.seed1) ∧
  s.seeded = t.seeded ∧ s.cfgSzs = t.cfgSzs ∧ s.cfgRbs = t.cfgRbs ∧ s.pendingCap = t.pendingCap ∧
  s.response = t.response ∧ s.host = t.host ∧ s.taken = t.taken ∧ s.resets = t.resets

/-- Two outcomes of the same kind, with states the host cannot tell apart, or the same reason. -/
def SameOutcome : Host.Outcome State Fault Refusal → Host.Outcome State Fault Refusal → Prop
  | .next a, .next b => SameToHost a b
  | .fault a, .fault b => a = b
  | .refused a, .refused b => a = b
  | _, _ => False

/-- The attempt made after `k` earlier ones from the seeds `p` overflows (R67, R68). -/
def overflowsAfter (m : Word) (k : Nat) (p : Seeds) : Bool := (sample (drawAfter k p) m).overflowed

/-- `NEXT` executed `k` times in a row. -/
def nextTimes : Nat → State → Host.Outcome State Fault Refusal
  | 0, s => .next s
  | k + 1, s =>
    match exec .next s with
    | .next t => nextTimes k t
    | .fault r => .fault r
    | .refused r => .refused r

end Sys2Proof.Machine
end

