-- ==== Sys2Proof/Certificates/Slice0/Obligations.lean ====
section
/-! DEFINITION. The statements about the block. Each docstring names the rules of spec/ it formalises; one that rests on a
choice of the model says so and names the log entry. -/

open Sys2Proof Sys2Proof.Machine

/-! ## Encoding (30_encoding.md) -/

/-- R40: `encode` followed by `decode` gives the command back, whatever its operands. -/
def Obligations.DecodeOfEncode : Prop := ∀ i : Instr, decode (encode i) = .ok i

/-- R40: a legal word is the encoding of the command it decodes to, so two legal words with one meaning are one word. -/
def Obligations.EncodeOfDecode : Prop := ∀ (w : CmdWord) (i : Instr), decode w = .ok i → encode i = w

/-- R36, R38: the words `decode` (R40) reads are exactly those some row of the match-and-mask table accepts. -/
def Obligations.DecodeAgreesWithMaskTable : Prop :=
  ∀ w : CmdWord, (∃ i, decode w = .ok i) ↔ w.wellFormed = true

/-- R36, R37: the row that accepts a word has the opcode and the format of the command the word decodes to. -/
def Obligations.AcceptingRowIsTheCommandsRow : Prop :=
  ∀ (w : CmdWord) (i : Instr) (r : OpRow), r ∈ opTable → r.accepts w = true → decode w = .ok i →
    r.opcode = i.opcode ∧ r.format = i.format

/-- R45, V13: words written out in the spec decode to the commands it says they are. -/
def Obligations.WrittenOutWordsDecode : Prop :=
  decode 0x10_0000000000003039_0000000000000000 = .ok (.hash 12345) ∧
  decode 0x11_17d2abfbf90baef9_0000000000000000 = .ok (.ihash 0x17d2abfbf90baef9) ∧
  decode 0x20_17d2abfbf90baef9_fc80cd1860e28208 = .ok (.seedpair 0x17d2abfbf90baef9 0xfc80cd1860e28208) ∧
  decode 0x21_0000000000003039_0000000000000000 = .ok (.seed 12345) ∧
  decode 0x30_0000000000000000_0000000000000000 = .ok .next ∧
  decode 0x31_00000000ffffffff_0000000000000000 = .ok (.adv 4294967295) ∧
  decode 0x41_0000000000000086_0000000000000000 = .ok (.cap 134)

/-- R38, R78: a word no row accepts, sent to a block that is ready, answers `ILLEGAL` with data 0 in every state and changes
nothing else; and no other word answers `ILLEGAL`. -/
def Obligations.IllegalWordsAnswerIllegal : Prop :=
  (∀ (w : CmdWord) (rest : List HostEvent) (s : State),
    s.host = .send w :: rest → s.cmdReady = true → w.wellFormed = false →
    step s = .next { s with host := rest, response := some ⟨.illegal, 0⟩ }) ∧
  (∀ (w : CmdWord) (s t : State) (d : Word), s.response = none → accept w s = .next t →
    t.response = some ⟨.illegal, d⟩ → w.wellFormed = false)

/-- R41: the fields of the response word, the codes that are produced, and the host reading the response back. R22, R92: the
port offers exactly the word of the response that waits, so a host reads that response from it; with `rsp_valid = 0` there is
no word at all, which is the model's choice on U5 (log 11). -/
def Obligations.ResponseWordHoldsStatusAndData : Prop :=
  (∀ r : Response,
    r.toWord.extractLsb' 64 4 = r.status.code ∧ r.toWord.extractLsb' 0 64 = r.data ∧
    r.status.code.toNat < 4 ∧ Response.ofWord r.toWord = some r) ∧
  (∀ (s : State) (r : Response), s.response = some r → s.rspValid = true ∧ s.rspWord = some r.toWord) ∧
  (∀ s : State, (s.rspValid = true ↔ s.rspWord ≠ none) ∧ s.rspWord.bind Response.ofWord = s.response)

/-- R43: whatever line the assembler accepts, the word it emits is legal. -/
def Obligations.AssemblerEmitsLegalWords : Prop :=
  ∀ (line : String) (w : CmdWord), assemble line = .ok w → w.wellFormed = true

/-- R44, R43: a line whose mnemonic is a pseudo-instruction, in capitals or not, with whatever white space, operands and comment,
stands for what the expansion with the same operands stands for, an error included; a line of `ADVANCEONE` without operands
stands for what `ADV 1` does, and with operands it is rejected. R11: the command each call of the source is, with every
operand. What counts as white space is the model's choice (log 15). -/
def Obligations.PseudoInstructionsExpand : Prop :=
  (∀ p e : String,
    (p, e) ∈ [("NEW", "SEED"), ("FROMPAIR", "SEEDPAIR"), ("NEXTU64", "NEXT"), ("ADVANCE", "ADV"),
      ("NEXTCAPPEDU64", "CAP"), ("UNCHECKEDNEXTCAPPEDU64", "UCAP")] →
    ∀ line : List Char, (mnemonicOf line).map upper = p.toList →
      assembleChars line = assembleChars (e.toList ++ operandText line) ∧
      ∀ line' : List Char, (mnemonicOf line').map upper = e.toList → operandText line' = operandText line →
        assembleChars line = assembleChars line') ∧
  (∀ line : List Char, (mnemonicOf line).map upper = "ADVANCEONE".toList →
    (operandText line = [] →
      assembleChars line = .ok (.adv 1) ∧ assembleChars line = assembleChars "ADV 1".toList) ∧
    (operandText line ≠ [] → ∃ why, assembleChars line = .error why)) ∧
  (∀ (a b m : Word) (n : Count),
    (SourceCall.new a).command = .seed a ∧ (SourceCall.fromPair a b).command = .seedpair a b ∧
    (SourceCall.fromInitializer (.seedPair a b)).command = .seedpair a b ∧
    (SourceCall.fromInitializer (.seed a)).command = .seed a ∧
    (SourceCall.fromInitializer (.seed0 a)).command = .seed0 a ∧
    (SourceCall.fromInitializer (.seed1 b)).command = .seed1 b ∧
    SourceCall.nextU64.command = .next ∧ (SourceCall.advance n).command = .adv n ∧
    SourceCall.advanceOne.command = .adv 1 ∧ (SourceCall.nextCappedU64 m).command = .cap m ∧
    (SourceCall.uncheckedNextCappedU64 m).command = .ucap m ∧
    (SourceCall.hash a).command = .hash a ∧ (SourceCall.inverseHash a).command = .ihash a)

/-! ## Hash finalizer (40_hash_finalizer.md) -/

/-- R46: the upper 33 bits of `xs33 x` are those of `x`; the lower 31 are those of `x` xored with bits 63 to 33 of `x`. -/
def Obligations.XorShiftKeepsUpperBits : Prop :=
  ∀ x : Word, xs33 x = x ^^^ (x >>> 33) ∧
    (∀ i, 31 ≤ i → i < 64 → (xs33 x).getLsbD i = x.getLsbD i) ∧
    (∀ i, i < 31 → (xs33 x).getLsbD i = (x.getLsbD i ^^ x.getLsbD (i + 33)))

/-- R49: the two functions undo one another over all 64-bit values, and both are bijections; with the two facts it follows
from: `xs33` is its own inverse, and a multiplier and its inverse cancel. -/
def Obligations.HashPairIsInverse : Prop :=
  (∀ x : Word, inverseHash (Machine.hash x) = x ∧ Machine.hash (inverseHash x) = x) ∧
  Function.Bijective Machine.hash ∧ Function.Bijective inverseHash ∧
  (∀ x : Word, xs33 (xs33 x) = x) ∧ (∀ k k' y : Word, k * k' = 1 → y * k * k' = y)

/-- R50, R51: `HASH` and `IHASH` complete in every state, seeded or not, and change nothing but the response. -/
def Obligations.HashCommandsAnswer : Prop :=
  ∀ (x : Word) (s : State),
    exec (.hash x) s = .next { s with response := some ⟨.ok, Machine.hash x⟩ } ∧
    exec (.ihash x) s = .next { s with response := some ⟨.ok, inverseHash x⟩ }

/-- R51: `IHASH` of the data `HASH x` returned returns `x`, and `HASH` of the data `IHASH x` returned returns `x`. -/
def Obligations.HashCommandsRoundTrip : Prop :=
  ∀ (x : Word) (s : State),
    (∃ d t, exec (.hash x) s = .next t ∧ t.response = some ⟨.ok, d⟩ ∧
      exec (.ihash d) t = .next { s with response := some ⟨.ok, x⟩ }) ∧
    (∃ d t, exec (.ihash x) s = .next t ∧ t.response = some ⟨.ok, d⟩ ∧
      exec (.hash d) t = .next { s with response := some ⟨.ok, x⟩ })

/-! ## State transition engine (41_state_transition.md) -/

/-- R55: (i) the new first word is the old second; (ii) the output is the sum of the new words; (iii) the new second word
is `t ^ (t >> 17)`, all that it takes of the first, xored with what it takes of the second; (iv) consecutive outputs share a summand; (v) the state part is linear over
GF(2) in the 128 bits, the output is not. -/
def Obligations.TransitionIdentities : Prop :=
  (∀ p : Seeds, (advanceOne p).1.1 = p.2 ∧ (advanceOne p).2 = (advanceOne p).1.1 + (advanceOne p).1.2 ∧
    (advanceOne (advanceOne p).1).2 = (advanceOne p).1.2 + (advanceOne (advanceOne p).1).1.2) ∧
  (∀ p : Seeds,
    let t := p.1 ^^^ (p.1 <<< 23)
    (advanceOne p).1.2 = (t ^^^ (t >>> 17)) ^^^ p.2 ^^^ (p.2 >>> 26)) ∧
  (∀ p q : Seeds, (advanceOne (p.1 ^^^ q.1, p.2 ^^^ q.2)).1 =
    ((advanceOne p).1.1 ^^^ (advanceOne q).1.1, (advanceOne p).1.2 ^^^ (advanceOne q).1.2)) ∧
  ¬ ∀ p q : Seeds, (advanceOne (p.1 ^^^ q.1, p.2 ^^^ q.2)).2 = (advanceOne p).2 ^^^ (advanceOne q).2

/-- R58: `(0, 0)` is a fixed point, which every `NEXT`, `ADV`, `UCAP m` and `CAP m` with `m ≠ 0` answers with 0 and keeps. -/
def Obligations.ZeroSeedsStayZero : Prop :=
  advanceOne (0, 0) = ((0, 0), 0) ∧
  ∀ s : State, s.seeded = true → s.seed0 = 0 → s.seed1 = 0 → s.pendingCap = none →
    exec .next s = .next { s with response := some ⟨.ok, 0⟩ } ∧
    (∀ n, exec (.adv n) s = .next { s with response := some ⟨.ok, 0⟩ }) ∧
    (∀ m, m ≠ 0 → exec (.ucap m) s = .next { s with response := some ⟨.ok, 0⟩ }) ∧
    (∀ m, m ≠ 0 → exec (.cap m) s = .next { s with response := some ⟨.ok, 0⟩ })

/-- R59: the state part is a bijection with the inverse the rule writes out; only `(0, 0)` maps to `(0, 0)`. -/
def Obligations.TransitionIsBijection : Prop :=
  (∀ p : Seeds,
    let n0 := (advanceOne p).1.1
    let n1 := (advanceOne p).1.2
    let u := n1 ^^^ n0 ^^^ (n0 >>> 26)
    let t := u ^^^ (u >>> 17) ^^^ (u >>> 34) ^^^ (u >>> 51)
    p.2 = n0 ∧ p.1 = t ^^^ (t <<< 23) ^^^ (t <<< 46)) ∧
  Function.Bijective (fun p : Seeds => (advanceOne p).1) ∧
  (∀ p : Seeds, (advanceOne p).1 = (0, 0) ↔ p = (0, 0))

/-- R53, R54: `NEXT` on a seeded block: the new words and the output by the formulas of R53. -/
def Obligations.NextAnswersDraw : Prop :=
  ∀ s : State, s.seeded = true →
    let t := s.seed0 ^^^ (s.seed0 <<< 23)
    let n1 := t ^^^ s.seed1 ^^^ (t >>> 17) ^^^ (s.seed1 >>> 26)
    exec .next s = .next { s with seed0 := s.seed1, seed1 := n1, response := some ⟨.ok, s.seed1 + n1⟩ }

/-- R56, R57: `ADV n` on a seeded block leaves the `n`-fold iterate of the state part of `advanceOne`, and answers 0. -/
def Obligations.AdvLeavesTheIterate : Prop :=
  ∀ (n : Count) (s : State), s.seeded = true →
    let p := (fun q : Seeds => (advanceOne q).1)^[n.toNat] (s.seed0, s.seed1)
    exec (.adv n) s = .next { s with seed0 := p.1, seed1 := p.2, response := some ⟨.ok, 0⟩ }

/-- R57: `ADV a` followed by `ADV b` leaves what `ADV (a+b)` leaves whenever `a + b < 2^32`. -/
def Obligations.AdvCountsAdd : Prop :=
  ∀ (a b : Count) (s : State), s.seeded = true → a.toNat + b.toNat < 2 ^ 32 →
    ∃ t u, exec (.adv a) s = .next t ∧ exec (.adv b) t = .next u ∧ exec (.adv (a + b)) s = .next u

/-- R57: `ADV n` followed by `NEXT` leaves, response and all, what `n + 1` consecutive `NEXT` commands leave. -/
def Obligations.AdvThenNextIsLastOfNexts : Prop :=
  ∀ (n : Count) (s : State), s.seeded = true →
    ∃ t u, exec (.adv n) s = .next t ∧ exec .next t = .next u ∧ nextTimes (n.toNat + 1) s = .next u

/-! ## Seed constructor (42_seed_constructor.md) -/

/-- R61: `SEEDPAIR` completes in every state and loads both halves verbatim, whatever the straps. -/
def Obligations.SeedpairLoadsVerbatim : Prop :=
  ∀ (s0 s1 : Word) (s : State),
    exec (.seedpair s0 s1) s =
      .next { s with seed0 := s0, seed1 := s1, seeded := true, response := some ⟨.ok, 0⟩ }

/-- R60, R62: `SEED` completes in every state: `seed0` is the hash of the substituted seed, `seed1` the hash of `seed0`. -/
def Obligations.SeedExpandsScalar : Prop :=
  ∀ (v : Word) (s : State),
    let x := if s.cfgSzs = true ∧ v = 0 then 0x8000000000000000 else v
    exec (.seed v) s =
      .next { s with seed0 := Machine.hash x, seed1 := Machine.hash (Machine.hash x), seeded := true,
                     response := some ⟨.ok, 0⟩ }

/-- R63: `SEED0` completes in every state, `seed1` is the hash of the operand, whatever the straps. -/
def Obligations.SeedZeroHashesOperand : Prop :=
  ∀ (v : Word) (s : State),
    exec (.seed0 v) s =
      .next { s with seed0 := v, seed1 := Machine.hash v, seeded := true, response := some ⟨.ok, 0⟩ }

/-- R64: `SEED1` completes in every state, `seed0` is the inverse hash of the operand, and the stored `seed1` always equals
the operand. -/
def Obligations.SeedOneKeepsOperand : Prop :=
  ∀ (v : Word) (s : State),
    exec (.seed1 v) s =
      .next { s with seed0 := inverseHash v, seed1 := v, seeded := true, response := some ⟨.ok, 0⟩ }

/-- R65 (ii), (iii), R63, R64: `SEED0 (hash(subst0 v))` leaves what `SEED v` leaves, `SEED1 (hash a)` and
`SEEDPAIR a, hash a` what `SEED0 a` leaves. -/
def Obligations.SeedFormsAgree : Prop :=
  ∀ s : State,
    (∀ v, exec (.seed0 (Machine.hash (subst0 s.cfgSzs v))) s = exec (.seed v) s) ∧
    (∀ a, exec (.seed1 (Machine.hash a)) s = exec (.seed0 a) s) ∧
    (∀ a, exec (.seedpair a (Machine.hash a)) s = exec (.seed0 a) s)

/-- R65 (iv): with `CFG.SZS = 0` two scalar seeds leave one state only when they are equal; with `CFG.SZS = 1` also when they
are 0 and 2^63. -/
def Obligations.SeedIsInjective : Prop :=
  ∀ (a b : Word) (s : State), exec (.seed a) s = exec (.seed b) s ↔
    a = b ∨ (s.cfgSzs = true ∧
      ((a = 0 ∧ b = 0x8000000000000000) ∨ (a = 0x8000000000000000 ∧ b = 0)))

/-- R28: `HASH`, `IHASH` and the four seed commands issued twice leave what they leave once. -/
def Obligations.PureAndSeedCommandsAreIdempotent : Prop :=
  ∀ (i : Instr) (s t : State), i.opcode.toNat < 0x30 → exec i s = .next t → exec i t = .next t

/-! ## Capped sampler (43_capped_sampler.md) -/

/-- R71: `overflowed` is true exactly when the true sum reaches 2^64; never for `m ≤ 2^63`; for `m > 2^63` the residue is
`bits` and the draw is rejected exactly when `bits ≥ 2^64 - m`; it equals the direct test the source mentions. -/
def Obligations.OverflowIsTrueSum : Prop :=
  ∀ raw m : Word, m ≠ 0 →
    let r := sample raw m
    (r.overflowed = true ↔ 2 ^ 64 ≤ r.bits.toNat + m.toNat) ∧
    (m.toNat ≤ 2 ^ 63 → r.overflowed = false) ∧
    (2 ^ 63 < m.toNat → r.residue = r.bits ∧ (r.overflowed = true ↔ 2 ^ 64 - m.toNat ≤ r.bits.toNat)) ∧
    (r.overflowed = true ↔ 2 ^ 64 - 1 - m.toNat < r.bits.toNat)

/-- R67 to R69: `UCAP m` on a seeded block, `m ≠ 0`, makes one step and answers the residue of the upper 63 bits of the
output, whatever the straps. -/
def Obligations.UcapAnswersResidue : Prop :=
  ∀ (m : Word) (s : State), s.seeded = true → m ≠ 0 →
    let t := s.seed0 ^^^ (s.seed0 <<< 23)
    let n1 := t ^^^ s.seed1 ^^^ (t >>> 17) ^^^ (s.seed1 >>> 26)
    exec (.ucap m) s =
      .next { s with seed0 := s.seed1, seed1 := n1, response := some ⟨.ok, ((s.seed1 + n1) >>> 1) % m⟩ }

/-- R74: whatever `UCAP m` or `CAP m` answers with status OK is below `m` and below 2^63, whether at the first attempt (a step
that executes the command) or at a later one (a step of a block on which `CAP m` is pending, which can answer nothing but
OK, R72). -/
def Obligations.CappedDataIsBounded : Prop :=
  (∀ (i : Instr) (m : Word) (s t : State) (d : Word), i = .ucap m ∨ i = .cap m → s.response = none →
    exec i s = .next t → t.response = some ⟨.ok, d⟩ → d.toNat < m.toNat ∧ d.toNat < 2 ^ 63) ∧
  (∀ (m : Word) (s t : State) (r : Response), s.inv = true → s.pendingCap = some m →
    step s = .next t → t.response = some r →
    r.status = .ok ∧ r.data.toNat < m.toNat ∧ r.data.toNat < 2 ^ 63)

/-- R72: `CAP m` on a seeded block, `m ≠ 0`, completes with its first attempt when rerolls are disabled or that attempt does
not overflow, which for `m ≤ 2^63` it never does (R71). -/
def Obligations.CapCompletesWhenAccepted : Prop :=
  ∀ (m : Word) (s : State), s.seeded = true → m ≠ 0 →
    let t := s.seed0 ^^^ (s.seed0 <<< 23)
    let n1 := t ^^^ s.seed1 ^^^ (t >>> 17) ^^^ (s.seed1 >>> 26)
    let bits := (s.seed1 + n1) >>> 1
    s.cfgRbs = false ∨ m.toNat ≤ 2 ^ 63 ∨ bits.toNat + m.toNat < 2 ^ 64 →
    exec (.cap m) s =
      .next { s with seed0 := s.seed1, seed1 := n1, pendingCap := none, response := some ⟨.ok, bits % m⟩ }

/-- R72: with `CFG.RBS = 1` an attempt that overflows is discarded: the state is advanced, there is no response, and the
command stays pending. This says where `CAP` waits, not where it completes. -/
def Obligations.CapRejectedStaysPending : Prop :=
  ∀ (m : Word) (s : State), s.seeded = true → s.cfgRbs = true →
    let t := s.seed0 ^^^ (s.seed0 <<< 23)
    let n1 := t ^^^ s.seed1 ^^^ (t >>> 17) ^^^ (s.seed1 >>> 26)
    2 ^ 64 ≤ ((s.seed1 + n1) >>> 1).toNat + m.toNat →
    exec (.cap m) s = .next { s with seed0 := s.seed1, seed1 := n1, pendingCap := some m }

/-- R72: with `CFG.RBS = 0`, or with a modulus of at most 2^63, `CAP m` is `UCAP m`. -/
def Obligations.CapIsUcapWithoutReroll : Prop :=
  ∀ (m : Word) (s : State), s.pendingCap = none → s.cfgRbs = false ∨ m.toNat ≤ 2 ^ 63 →
    exec (.cap m) s = exec (.ucap m) s

/-- R72: with `CFG.RBS = 1` and `m > 2^63` the data of a completed `CAP m` is below `2^64 - m`, whether it completes at its
first attempt or, having been pending (which by the invariant implies both conditions), at a later one. -/
def Obligations.CapAcceptsBelowTheLimit : Prop :=
  (∀ (m : Word) (s t : State) (d : Word), s.cfgRbs = true → 2 ^ 63 < m.toNat → s.response = none →
    exec (.cap m) s = .next t → t.response = some ⟨.ok, d⟩ → d.toNat < 2 ^ 64 - m.toNat) ∧
  (∀ (m : Word) (s t : State) (d : Word), s.inv = true → s.pendingCap = some m →
    step s = .next t → t.response = some ⟨.ok, d⟩ → d.toNat < 2 ^ 64 - m.toNat)

/-- R72, R73: a `CAP m` sent to a ready, seeded block with `CFG.RBS = 1`, whose first `j` attempts overflow and whose next
does not, has after `j + 1` steps answered that attempt's residue with the state advanced by `j + 1`. The host may be silent
meanwhile, hold itself ready to take, or hold out its next word. That an attempt is a step is the model's choice (log 1, log
6), and so is how a host that takes goes on (log 13). -/
def Obligations.CapCompletesAtFirstAccepted : Prop :=
  ∀ (m : Word) (j : Nat) (rest : List HostEvent) (s : State),
    s.seeded = true → s.cfgRbs = true → m ≠ 0 → s.cmdReady = true →
    s.host = .send (encode (.cap m)) :: rest → hostWaits rest = true →
    (∀ k, k < j → overflowsAfter m k s.seeds = true) → overflowsAfter m j s.seeds = false →
    run (j + 1) s =
      .next { s with seed0 := (advance (j + 1) s.seeds).1, seed1 := (advance (j + 1) s.seeds).2,
                     response := some ⟨.ok, (drawAfter j s.seeds >>> 1) % m⟩, host := rest }

/-- R72, R73: as long as every attempt so far has overflowed, the command is still pending, without a response, and the block
has done nothing but advance: there is no bound on this but the draws themselves. A host that holds itself ready to take or
holds out its next word goes on waiting. That an attempt is a step is the model's choice (log 1, log 6), and so is how a
host that takes goes on (log 13). -/
def Obligations.CapStaysPendingWhileRejected : Prop :=
  ∀ (m : Word) (k : Nat) (rest : List HostEvent) (s : State),
    s.seeded = true → s.cfgRbs = true → m ≠ 0 → s.cmdReady = true →
    s.host = .send (encode (.cap m)) :: rest → hostWaits rest = true →
    (∀ i, i ≤ k → overflowsAfter m i s.seeds = true) →
    run (k + 1) s =
      .next { s with seed0 := (advance (k + 1) s.seeds).1, seed1 := (advance (k + 1) s.seeds).2,
                     pendingCap := some m, host := rest }

/-- R73: a `CAP m` answers if and only if some attempt does not overflow; otherwise it hangs, for ever without a response,
whether the host is silent, holds itself ready to take, or holds out its next word. That an attempt is a step is the model's
choice (log 1, log 6), and so is how a host that takes goes on (log 13). -/
def Obligations.CapAnswersIffSomeAttemptAccepted : Prop :=
  ∀ (m : Word) (rest : List HostEvent) (s : State),
    s.seeded = true → s.cfgRbs = true → m ≠ 0 → s.cmdReady = true →
    s.host = .send (encode (.cap m)) :: rest → hostWaits rest = true →
    ((∃ k t r, run k s = .next t ∧ t.response = some r) ↔ ∃ j, overflowsAfter m j s.seeds = false)

/-! ## Errors (60_exceptions.md) -/

/-- R79: the four draw commands, `ADV` with every count and the samplers with every modulus, answer `UNSEEDED` on an
unseeded block and change nothing else. -/
def Obligations.UnseededDrawsAnswerUnseeded : Prop :=
  ∀ (i : Instr) (s : State), 0x30 ≤ i.opcode.toNat → s.seeded = false →
    exec i s = .next { s with response := some ⟨.unseeded, 0⟩ }

/-- R70, R77: a modulus of zero answers `DIV0` on a seeded block with the state not advanced (R83, the reading of C4; log 8),
and nothing else answers `DIV0`: it does not depend on the seeds or the straps, and no other command can raise it. -/
def Obligations.ModulusZeroAnswersDivZero : Prop :=
  (∀ s : State, s.seeded = true →
    exec (.ucap 0) s = .next { s with response := some ⟨.div0, 0⟩ } ∧
    exec (.cap 0) s = .next { s with response := some ⟨.div0, 0⟩ }) ∧
  (∀ (i : Instr) (s t : State), s.response = none → exec i s = .next t →
    ((∃ d, t.response = some ⟨.div0, d⟩) ↔ s.seeded = true ∧ (i = .ucap 0 ∨ i = .cap 0)))

/-- R83, R41: a word whose response is not OK changes nothing but the response, whose data is 0 (for
`DIV0` the reading of C4; log 8). -/
def Obligations.ErrorsWriteNothing : Prop :=
  ∀ (w : CmdWord) (s t : State) (r : Response), s.response = none → accept w s = .next t → t.response = some r →
    r.status ≠ .ok → r.data = 0 ∧ t = { s with response := some r }

/-- R80: the order of the checks: a word that is illegal answers `ILLEGAL` in every state, whatever else applies; with a
modulus of zero an unseeded block then answers `UNSEEDED`, and only a seeded one `DIV0`. That none of them changes anything
else is R83; for `DIV0` it is the reading of C4 (log 8). -/
def Obligations.ChecksComeInOrder : Prop :=
  (∀ (w : CmdWord) (s : State), w.wellFormed = false →
    accept w s = .next { s with response := some ⟨.illegal, 0⟩ }) ∧
  (∀ (op : BitVec 8) (b : Word) (s : State), op = 0x40 ∨ op = 0x41 →
    let st := if b ≠ 0 then Status.illegal else if s.seeded = false then .unseeded else .div0
    accept (packWord op 0 b) s = .next { s with response := some ⟨st, 0⟩ })

/-! ## State, straps and reset (10_state.md, 70_reset_and_hazards.md) -/

/-- R14, R17: no command writes the straps, the host's list, or the responses taken; `HASH` and `IHASH` leave the generator;
no draw changes `seeded`; only a `CAP` can become pending. -/
def Obligations.CommandsLeaveTheRest : Prop :=
  ∀ (i : Instr) (s t : State), exec i s = .next t →
    t.cfgSzs = s.cfgSzs ∧ t.cfgRbs = s.cfgRbs ∧ t.host = s.host ∧ t.taken = s.taken ∧ t.resets = s.resets ∧
    (i.opcode.toNat < 0x20 → t.seed0 = s.seed0 ∧ t.seed1 = s.seed1 ∧ t.seeded = s.seeded) ∧
    (0x30 ≤ i.opcode.toNat → t.seeded = s.seeded) ∧
    (i.opcode ≠ 0x41 → t.pendingCap = s.pendingCap)

/-- R15: `seeded` is cleared by reset alone, and set by nothing but a seed command the block accepts. -/
def Obligations.SeededChangesOnlyAsSaid : Prop :=
  ∀ s t : State, step s = .next t → s.resetNext = false →
    (s.seeded = true → t.seeded = true) ∧
    (s.seeded = false → t.seeded = true → ∃ w i rest, s.host = .send w :: rest ∧ s.cmdReady = true ∧
      decode w = .ok i ∧ 0x20 ≤ i.opcode.toNat ∧ i.opcode.toNat < 0x30)

/-- R17, R91: no step but a reset changes a strap. -/
def Obligations.StrapsHoldOutOfReset : Prop :=
  ∀ s t : State, step s = .next t → s.resetNext = false → t.cfgSzs = s.cfgSzs ∧ t.cfgRbs = s.cfgRbs

/-- The model's choice on U3 (log 5): a run in which a strap is driven to another level out of reset stops there. -/
def Obligations.StrapChangeStops : Prop :=
  ∀ (a b : Bool) (rest : List HostEvent) (s : State), s.host = .straps a b :: rest →
    a ≠ s.cfgSzs ∨ b ≠ s.cfgRbs → step s = .fault .strapsChangedOutOfReset

/-- R82, R91: with a host that keeps the straps no run stops, from whatever state, however many steps it takes. -/
def Obligations.StrapKeepingHostNeverStops : Prop :=
  ∀ (k : Nat) (s : State), strapsKept s.cfgSzs s.cfgRbs s.host = true →
    ∃ t, run k s = .next t ∧ strapsKept t.cfgSzs t.cfgRbs t.host = true

/-- R71, R72, R73, R93, R41: every step keeps the invariant: a pending `CAP` is one that could be rejected, with no response
beside it, and every response, offered or taken, has data 0 unless it is OK. -/
def Obligations.StepKeepsInvariant : Prop :=
  ∀ s t : State, s.inv = true → step s = .next t → t.inv = true

/-- R23: the invariant holds right after reset. -/
def Obligations.ResetMeetsInvariant : Prop := State.reset.inv = true

/-- R23, R88: right after reset the block is not seeded, has no command in progress and no response, and is ready. The empty
lists and the count are the model's own fields (log 2, log 3). -/
def Obligations.ResetStateIsIdle : Prop :=
  State.reset.seeded = false ∧ State.reset.pendingCap = none ∧ State.reset.response = none ∧
  State.reset.rspValid = false ∧ State.reset.cmdReady = true ∧ State.reset.host = [] ∧ State.reset.taken = []

/-- R88, R89: a reset in any state clears `seeded`, drops the command in progress and the response not taken, keeps the
responses taken, and leaves the block ready; this ends a hanging `CAP`. -/
def Obligations.ResetDropsEverything : Prop :=
  ∀ (a b : Bool) (rest : List HostEvent) (s : State), s.host = .reset a b :: rest →
    ∃ t, step s = .next t ∧ t.seeded = false ∧ t.pendingCap = none ∧ t.response = none ∧ t.cmdReady = true ∧
      t.cfgSzs = a ∧ t.cfgRbs = b ∧ t.host = rest ∧ t.taken = s.taken

/-- R89: the state after a reset is the same to the host whatever was in progress: the seeds, the flag, the straps, the pending
command and the response there were leave no trace in anything but the seeds, which nobody can see until the block is seeded
again (R23; nothing is said of their values, log 3). -/
def Obligations.ResetForgetsProgress : Prop :=
  ∀ s t : State, s.resetNext = true → s.host = t.host → s.taken = t.taken → s.resets = t.resets →
    SameOutcome (step s) (step t)

/-- R23, U1: while the block is not seeded the seeds' values make no difference: states that differ in nothing else step to
states that differ in nothing else. -/
def Obligations.UnseededSeedsMakeNoDifference : Prop :=
  ∀ s t : State, s.inv = true → SameToHost s t → SameOutcome (step s) (step t)

/-- R23: whatever values the seeds have at reset, whatever the straps and whatever the host does, the runs are the same to
the host at every step, and so are the responses it takes. -/
def Obligations.UnspecifiedSeedsAreNeverSeen : Prop :=
  ∀ (a b c d : Word) (szs rbs : Bool) (h : List HostEvent) (k : Nat),
    SameOutcome
      (run k { State.reset with seed0 := a, seed1 := b, cfgSzs := szs, cfgRbs := rbs, host := h })
      (run k { State.reset with seed0 := c, seed1 := d, cfgSzs := szs, cfgRbs := rbs, host := h })

/-! ## Handshake (70_reset_and_hazards.md, 20_memory.md) -/

/-- R92: a word sent to a block that is ready and that decodes to `i` makes the step the execution of `i`, with the word gone
from the host's list and nothing else around it. -/
def Obligations.StepRunsSentCommand : Prop :=
  ∀ (w : CmdWord) (i : Instr) (rest : List HostEvent) (s : State),
    s.host = .send w :: rest → s.cmdReady = true → decode w = .ok i → step s = exec i { s with host := rest }

/-- R93: while a command is in progress or a response waits, a word held out is not accepted, whatever word it is: the host
goes on holding it and no response is taken. With a `CAP` pending the step is that command's next attempt and nothing else,
after which it is still pending or has answered OK (R72); with a response waiting and no `CAP` pending nothing changes at
all. -/
def Obligations.BusyBlockAcceptsNothing : Prop :=
  ∀ (w : CmdWord) (rest : List HostEvent) (s : State), s.host = .send w :: rest → s.cmdReady = false →
    ∃ t, step s = .next t ∧ t.host = s.host ∧ t.taken = s.taken ∧
      (s.pendingCap = none → t = s) ∧
      (∀ m, s.pendingCap = some m →
        t = capAttempt m s ∧ (t.pendingCap = some m ∨ (t.pendingCap = none ∧ ∃ d, t.response = some ⟨.ok, d⟩)))

/-- R92: a response is taken when the host is ready for it, and only then leaves the port. With none offered, a host that is
ready to take goes on waiting while a `CAP` makes its next attempt, and otherwise goes on with nothing taken and nothing
changed in the block: the model's choice (log 13). -/
def Obligations.TakingDeliversResponse : Prop :=
  ∀ (rest : List HostEvent) (s : State), s.host = .take :: rest →
    (∀ r, s.response = some r →
      step s = .next { s with response := none, taken := s.taken ++ [r], host := rest }) ∧
    (∀ m, s.response = none → s.pendingCap = some m →
      step s = .next (capAttempt m s) ∧ (capAttempt m s).host = s.host ∧ (capAttempt m s).taken = s.taken) ∧
    (s.response = none → s.pendingCap = none → step s = .next { s with host := rest })

/-- R92: once a response is offered, every step but a taking and a reset keeps it, and with it `rsp_valid` and `rsp_word`,
unchanged. -/
def Obligations.ResponseHeldUntilTaken : Prop :=
  ∀ (r : Response) (s t : State), s.inv = true → s.response = some r → s.resetNext = false →
    (∀ rest, s.host ≠ .take :: rest) → step s = .next t →
    t.response = some r ∧ t.rspValid = true ∧ t.rspWord = s.rspWord

/-- R30 (4): a word accepted by a ready block has its one response, or is a `CAP` that is still pending and has none. -/
def Obligations.AcceptedWordIsAnsweredOrPending : Prop :=
  ∀ (w : CmdWord) (s : State), s.cmdReady = true →
    ∃ t, accept w s = .next t ∧
      ((t.pendingCap = none ∧ ∃ r, t.response = some r) ∨
       (∃ m, decode w = .ok (.cap m) ∧ t.pendingCap = some m ∧ t.response = none))

/-- R30, R98: a word sent and its response taken, when the command does not stay pending: two steps, after which the block is
idle again and the host has exactly that response more. -/
def Obligations.CommandAndResponseRoundTrip : Prop :=
  ∀ (w : CmdWord) (rest : List HostEvent) (s u : State), s.host = .send w :: .take :: rest → s.cmdReady = true →
    accept w { s with host := .take :: rest } = .next u → u.pendingCap = none →
    ∃ r, u.response = some r ∧
      run 2 s = .next { u with response := none, taken := s.taken ++ [r], host := rest }

/-- R99: the block has no background activity: with the host silent and no `CAP` pending its state does not change. -/
def Obligations.IdleBlockDoesNotChange : Prop :=
  ∀ (k : Nat) (s : State), s.host = [] → s.pendingCap = none → run k s = .next s
end

