-- ==== Sys2Proof/Laws/Assembler.lean ====
section
/-! SUPPORT. The assembler: what a line's command depends on, and what its parts can be. -/

namespace Sys2Proof.Machine

/-- The form of a mnemonic depends on its letters in capitals alone. -/
theorem formOf_congr {m m' : List Char} (h : m.map upper = m'.map upper) : formOf m = formOf m' := by
  rw [formOf, formOf, h]

/-- The command of a line depends on its mnemonic's form and its operands alone. -/
theorem assembleChars_congr {l l' : List Char} (hf : formOf (mnemonicOf l) = formOf (mnemonicOf l'))
    (ho : operandText l = operandText l') : assembleChars l = assembleChars l' := by
  rw [assembleChars, assembleChars, hf, ho]

theorem assembleChars_of_form {l : List Char} {form : List Int → Except AsmError Instr} {vs : List Int}
    (hf : formOf (mnemonicOf l) = some form) (ho : operandsOf (operandText l) = some vs) :
    assembleChars l = form vs := by
  simp only [assembleChars, hf, ho]

/-- There is a part before the first comma, be it empty. -/
theorem splitCommas_ne_nil (cs : List Char) : splitCommas cs ≠ [] := by
  cases cs with
  | nil => exact List.cons_ne_nil _ _
  | cons c cs =>
    rw [splitCommas]
    split
    · exact List.cons_ne_nil _ _
    · split <;> exact List.cons_ne_nil _ _

/-- As many literals as parts, if all parts are literals. -/
theorem literals_length {ps : List (List Char)} {vs : List Int} (h : literals ps = some vs) : vs.length = ps.length := by
  induction ps generalizing vs with
  | nil => cases h; rfl
  | cons p ps ih =>
    rw [literals] at h
    split at h
    · next hv =>
      cases h
      simp [ih hv]
    · cases h

end Sys2Proof.Machine
end

