-- ==== Sys2Proof/Laws/Decode.lean ====
section
/-! SUPPORT. The fields of a packed word are the fields packed, and a word is its fields packed; the count field. -/

namespace Sys2Proof

@[simp] theorem opField_packWord (op : BitVec 8) (a b : Word) : opField (packWord op a b) = op := by
  apply BitVec.eq_of_getLsbD_eq
  intro i hi
  have h1 : ¬ 128 + i < 64 := by omega
  have h2 : ¬ 128 + i - 64 < 64 := by omega
  have h3 : 128 + i - 64 - 64 = i := by omega
  unfold opField packWord
  rw [BitVec.getLsbD_extractLsb', BitVec.getLsbD_append, BitVec.getLsbD_append, if_neg h1, if_neg h2, h3]
  simp [hi]

@[simp] theorem aField_packWord (op : BitVec 8) (a b : Word) : aField (packWord op a b) = a := by
  apply BitVec.eq_of_getLsbD_eq
  intro i hi
  have h1 : ¬ 64 + i < 64 := by omega
  have h2 : 64 + i - 64 = i := by omega
  unfold aField packWord
  rw [BitVec.getLsbD_extractLsb', BitVec.getLsbD_append, BitVec.getLsbD_append, if_neg h1, h2, if_pos hi]
  simp [hi]

@[simp] theorem bField_packWord (op : BitVec 8) (a b : Word) : bField (packWord op a b) = b := by
  apply BitVec.eq_of_getLsbD_eq
  intro i hi
  unfold bField packWord
  rw [BitVec.getLsbD_extractLsb', BitVec.getLsbD_append]
  simp [hi]

theorem packWord_fields (w : CmdWord) : packWord (opField w) (aField w) (bField w) = w := by
  apply BitVec.eq_of_getLsbD_eq
  intro i hi
  unfold opField aField bField packWord
  rw [BitVec.getLsbD_append, BitVec.getLsbD_append]
  simp only [BitVec.getLsbD_extractLsb']
  by_cases h0 : i < 64
  · simp [h0]
  · by_cases h1 : i - 64 < 64
    · have e : 64 + (i - 64) = i := by omega
      simp [h0, h1, e]
    · have e : 128 + (i - 64 - 64) = i := by omega
      have h2 : i - 64 - 64 < 8 := by omega
      simp [h0, h1, h2, e]

@[simp] theorem countOf_setWidth (n : Count) : countOf (n.setWidth 64) = n := by
  apply BitVec.eq_of_getLsbD_eq
  intro i hi
  have h : i < 64 := by omega
  simp [countOf, hi, h]

@[simp] theorem reservedHigh_setWidth (n : Count) : reservedHigh (n.setWidth 64) = 0 := by
  apply BitVec.eq_of_getLsbD_eq
  intro i hi
  simp [reservedHigh]

/-- A field `A` whose reserved half is zero is the zero extension of its count. -/
theorem setWidth_countOf (a : Word) (h : reservedHigh a = 0) : (countOf a).setWidth 64 = a := by
  apply BitVec.eq_of_getLsbD_eq
  intro i hi
  by_cases h32 : i < 32
  · simp [countOf, hi, h32]
  · have e : 32 + (i - 32) = i := by omega
    have l : i - 32 < 32 := by omega
    have hb := congrArg (fun v => v.getLsbD (i - 32)) h
    simp [reservedHigh, e, l] at hb
    simp [countOf, h32, hb]

/-- The decoder of a packed word sees the fields packed. -/
@[simp] theorem decode_packWord (op : BitVec 8) (a b : Word) :
    decode (packWord op a b) = decodeFields op a b := by
  simp [decode]

end Sys2Proof
end

