-- ==== Sys2Proof/Laws/State.lean ====
section
/-! SUPPORT. One lemma per field per update of the state, each true by unfolding the record once.
Each proof is `(rfl)`, not `rfl`, so that `simp` rewrites with it step by step: asked to see a nested update and a record with a
`hash` in it as one by unfolding, the kernel would unfold the hash. For the same reason compare whole records only after
rewriting with the lemmas at the end. -/

namespace Sys2Proof.Machine

variable (s : State)

@[simp] theorem State.setSeeds_seed0 (p : Seeds) : (s.setSeeds p).seed0 = p.1 := (rfl)
@[simp] theorem State.setSeeds_seed1 (p : Seeds) : (s.setSeeds p).seed1 = p.2 := (rfl)
@[simp] theorem State.setSeeds_seeded (p : Seeds) : (s.setSeeds p).seeded = s.seeded := (rfl)
@[simp] theorem State.setSeeds_cfgSzs (p : Seeds) : (s.setSeeds p).cfgSzs = s.cfgSzs := (rfl)
@[simp] theorem State.setSeeds_cfgRbs (p : Seeds) : (s.setSeeds p).cfgRbs = s.cfgRbs := (rfl)
@[simp] theorem State.setSeeds_pendingCap (p : Seeds) : (s.setSeeds p).pendingCap = s.pendingCap := (rfl)
@[simp] theorem State.setSeeds_response (p : Seeds) : (s.setSeeds p).response = s.response := (rfl)
@[simp] theorem State.setSeeds_host (p : Seeds) : (s.setSeeds p).host = s.host := (rfl)
@[simp] theorem State.setSeeds_taken (p : Seeds) : (s.setSeeds p).taken = s.taken := (rfl)
@[simp] theorem State.setSeeds_resets (p : Seeds) : (s.setSeeds p).resets = s.resets := (rfl)

@[simp] theorem State.construct_seed0 (a b : Word) : (s.construct a b).seed0 = a := (rfl)
@[simp] theorem State.construct_seed1 (a b : Word) : (s.construct a b).seed1 = b := (rfl)
@[simp] theorem State.construct_seeded (a b : Word) : (s.construct a b).seeded = true := (rfl)
@[simp] theorem State.construct_cfgSzs (a b : Word) : (s.construct a b).cfgSzs = s.cfgSzs := (rfl)
@[simp] theorem State.construct_cfgRbs (a b : Word) : (s.construct a b).cfgRbs = s.cfgRbs := (rfl)
@[simp] theorem State.construct_pendingCap (a b : Word) : (s.construct a b).pendingCap = s.pendingCap := (rfl)
@[simp] theorem State.construct_response (a b : Word) : (s.construct a b).response = s.response := (rfl)
@[simp] theorem State.construct_host (a b : Word) : (s.construct a b).host = s.host := (rfl)
@[simp] theorem State.construct_taken (a b : Word) : (s.construct a b).taken = s.taken := (rfl)
@[simp] theorem State.construct_resets (a b : Word) : (s.construct a b).resets = s.resets := (rfl)

@[simp] theorem State.respond_seed0 (st : Status) (d : Word) : (s.respond st d).seed0 = s.seed0 := (rfl)
@[simp] theorem State.respond_seed1 (st : Status) (d : Word) : (s.respond st d).seed1 = s.seed1 := (rfl)
@[simp] theorem State.respond_seeded (st : Status) (d : Word) : (s.respond st d).seeded = s.seeded := (rfl)
@[simp] theorem State.respond_cfgSzs (st : Status) (d : Word) : (s.respond st d).cfgSzs = s.cfgSzs := (rfl)
@[simp] theorem State.respond_cfgRbs (st : Status) (d : Word) : (s.respond st d).cfgRbs = s.cfgRbs := (rfl)
@[simp] theorem State.respond_pendingCap (st : Status) (d : Word) : (s.respond st d).pendingCap = s.pendingCap := (rfl)
@[simp] theorem State.respond_response (st : Status) (d : Word) : (s.respond st d).response = some ⟨st, d⟩ := (rfl)
@[simp] theorem State.respond_host (st : Status) (d : Word) : (s.respond st d).host = s.host := (rfl)
@[simp] theorem State.respond_taken (st : Status) (d : Word) : (s.respond st d).taken = s.taken := (rfl)
@[simp] theorem State.respond_resets (st : Status) (d : Word) : (s.respond st d).resets = s.resets := (rfl)

@[simp] theorem State.raise_seed0 (e : Exception) : (s.raise e).seed0 = s.seed0 := (rfl)
@[simp] theorem State.raise_seed1 (e : Exception) : (s.raise e).seed1 = s.seed1 := (rfl)
@[simp] theorem State.raise_seeded (e : Exception) : (s.raise e).seeded = s.seeded := (rfl)
@[simp] theorem State.raise_cfgSzs (e : Exception) : (s.raise e).cfgSzs = s.cfgSzs := (rfl)
@[simp] theorem State.raise_cfgRbs (e : Exception) : (s.raise e).cfgRbs = s.cfgRbs := (rfl)
@[simp] theorem State.raise_pendingCap (e : Exception) : (s.raise e).pendingCap = s.pendingCap := (rfl)
@[simp] theorem State.raise_response (e : Exception) : (s.raise e).response = some ⟨e.status, 0⟩ := (rfl)
@[simp] theorem State.raise_host (e : Exception) : (s.raise e).host = s.host := (rfl)
@[simp] theorem State.raise_taken (e : Exception) : (s.raise e).taken = s.taken := (rfl)
@[simp] theorem State.raise_resets (e : Exception) : (s.raise e).resets = s.resets := (rfl)

@[simp] theorem State.setPendingCap_seed0 (o : Option Word) : (s.setPendingCap o).seed0 = s.seed0 := (rfl)
@[simp] theorem State.setPendingCap_seed1 (o : Option Word) : (s.setPendingCap o).seed1 = s.seed1 := (rfl)
@[simp] theorem State.setPendingCap_seeded (o : Option Word) : (s.setPendingCap o).seeded = s.seeded := (rfl)
@[simp] theorem State.setPendingCap_cfgSzs (o : Option Word) : (s.setPendingCap o).cfgSzs = s.cfgSzs := (rfl)
@[simp] theorem State.setPendingCap_cfgRbs (o : Option Word) : (s.setPendingCap o).cfgRbs = s.cfgRbs := (rfl)
@[simp] theorem State.setPendingCap_pendingCap (o : Option Word) : (s.setPendingCap o).pendingCap = o := (rfl)
@[simp] theorem State.setPendingCap_response (o : Option Word) : (s.setPendingCap o).response = s.response := (rfl)
@[simp] theorem State.setPendingCap_host (o : Option Word) : (s.setPendingCap o).host = s.host := (rfl)
@[simp] theorem State.setPendingCap_taken (o : Option Word) : (s.setPendingCap o).taken = s.taken := (rfl)
@[simp] theorem State.setPendingCap_resets (o : Option Word) : (s.setPendingCap o).resets = s.resets := (rfl)

@[simp] theorem State.setHost_seed0 (h : List HostEvent) : (s.setHost h).seed0 = s.seed0 := (rfl)
@[simp] theorem State.setHost_seed1 (h : List HostEvent) : (s.setHost h).seed1 = s.seed1 := (rfl)
@[simp] theorem State.setHost_seeded (h : List HostEvent) : (s.setHost h).seeded = s.seeded := (rfl)
@[simp] theorem State.setHost_cfgSzs (h : List HostEvent) : (s.setHost h).cfgSzs = s.cfgSzs := (rfl)
@[simp] theorem State.setHost_cfgRbs (h : List HostEvent) : (s.setHost h).cfgRbs = s.cfgRbs := (rfl)
@[simp] theorem State.setHost_pendingCap (h : List HostEvent) : (s.setHost h).pendingCap = s.pendingCap := (rfl)
@[simp] theorem State.setHost_response (h : List HostEvent) : (s.setHost h).response = s.response := (rfl)
@[simp] theorem State.setHost_host (h : List HostEvent) : (s.setHost h).host = h := (rfl)
@[simp] theorem State.setHost_taken (h : List HostEvent) : (s.setHost h).taken = s.taken := (rfl)
@[simp] theorem State.setHost_resets (h : List HostEvent) : (s.setHost h).resets = s.resets := (rfl)

@[simp] theorem State.takeResponse_seed0 (r : Response) : (s.takeResponse r).seed0 = s.seed0 := (rfl)
@[simp] theorem State.takeResponse_seed1 (r : Response) : (s.takeResponse r).seed1 = s.seed1 := (rfl)
@[simp] theorem State.takeResponse_seeded (r : Response) : (s.takeResponse r).seeded = s.seeded := (rfl)
@[simp] theorem State.takeResponse_cfgSzs (r : Response) : (s.takeResponse r).cfgSzs = s.cfgSzs := (rfl)
@[simp] theorem State.takeResponse_cfgRbs (r : Response) : (s.takeResponse r).cfgRbs = s.cfgRbs := (rfl)
@[simp] theorem State.takeResponse_pendingCap (r : Response) : (s.takeResponse r).pendingCap = s.pendingCap := (rfl)
@[simp] theorem State.takeResponse_response (r : Response) : (s.takeResponse r).response = none := (rfl)
@[simp] theorem State.takeResponse_host (r : Response) : (s.takeResponse r).host = s.host := (rfl)
@[simp] theorem State.takeResponse_taken (r : Response) : (s.takeResponse r).taken = s.taken ++ [r] := (rfl)
@[simp] theorem State.takeResponse_resets (r : Response) : (s.takeResponse r).resets = s.resets := (rfl)

@[simp] theorem State.applyReset_seed0 (szs rbs : Bool) : (s.applyReset szs rbs).seed0 = Config.unspecifiedSeed0 (s.resets + 1) := (rfl)
@[simp] theorem State.applyReset_seed1 (szs rbs : Bool) : (s.applyReset szs rbs).seed1 = Config.unspecifiedSeed1 (s.resets + 1) := (rfl)
@[simp] theorem State.applyReset_seeded (szs rbs : Bool) : (s.applyReset szs rbs).seeded = false := (rfl)
@[simp] theorem State.applyReset_cfgSzs (szs rbs : Bool) : (s.applyReset szs rbs).cfgSzs = szs := (rfl)
@[simp] theorem State.applyReset_cfgRbs (szs rbs : Bool) : (s.applyReset szs rbs).cfgRbs = rbs := (rfl)
@[simp] theorem State.applyReset_pendingCap (szs rbs : Bool) : (s.applyReset szs rbs).pendingCap = none := (rfl)
@[simp] theorem State.applyReset_response (szs rbs : Bool) : (s.applyReset szs rbs).response = none := (rfl)
@[simp] theorem State.applyReset_host (szs rbs : Bool) : (s.applyReset szs rbs).host = s.host := (rfl)
@[simp] theorem State.applyReset_taken (szs rbs : Bool) : (s.applyReset szs rbs).taken = s.taken := (rfl)
@[simp] theorem State.applyReset_resets (szs rbs : Bool) : (s.applyReset szs rbs).resets = s.resets + 1 := (rfl)

@[simp] theorem State.offering_seed0 (w : CmdWord) : (s.offering w).seed0 = s.seed0 := (rfl)
@[simp] theorem State.offering_seed1 (w : CmdWord) : (s.offering w).seed1 = s.seed1 := (rfl)
@[simp] theorem State.offering_seeded (w : CmdWord) : (s.offering w).seeded = s.seeded := (rfl)
@[simp] theorem State.offering_cfgSzs (w : CmdWord) : (s.offering w).cfgSzs = s.cfgSzs := (rfl)
@[simp] theorem State.offering_cfgRbs (w : CmdWord) : (s.offering w).cfgRbs = s.cfgRbs := (rfl)
@[simp] theorem State.offering_pendingCap (w : CmdWord) : (s.offering w).pendingCap = none := (rfl)
@[simp] theorem State.offering_response (w : CmdWord) : (s.offering w).response = none := (rfl)
@[simp] theorem State.offering_host (w : CmdWord) : (s.offering w).host = .send w :: s.host := (rfl)
@[simp] theorem State.offering_taken (w : CmdWord) : (s.offering w).taken = s.taken := (rfl)
@[simp] theorem State.offering_resets (w : CmdWord) : (s.offering w).resets = s.resets := (rfl)

@[simp] theorem State.seeds_fst : s.seeds.1 = s.seed0 := (rfl)
@[simp] theorem State.seeds_snd : s.seeds.2 = s.seed1 := (rfl)
@[simp] theorem State.setSeeds_seeds (p : Seeds) : (s.setSeeds p).seeds = p := (rfl)
@[simp] theorem State.construct_seeds (a b : Word) : (s.construct a b).seeds = (a, b) := (rfl)
@[simp] theorem State.respond_seeds (st : Status) (d : Word) : (s.respond st d).seeds = s.seeds := (rfl)
@[simp] theorem State.setPendingCap_seeds (o : Option Word) : (s.setPendingCap o).seeds = s.seeds := (rfl)
@[simp] theorem State.setHost_seeds (h : List HostEvent) : (s.setHost h).seeds = s.seeds := (rfl)

/-! The updates the commands make, as one record each: rewrite with these, then compare records field by field. -/

theorem State.raise_eq (e : Exception) : s.raise e = { s with response := some ⟨e.status, 0⟩ } := (rfl)

theorem State.respond_eq (st : Status) (d : Word) : s.respond st d = { s with response := some ⟨st, d⟩ } := (rfl)

theorem State.respond_construct (a b : Word) (st : Status) (d : Word) :
    (s.construct a b).respond st d =
      { s with seed0 := a, seed1 := b, seeded := true, response := some ⟨st, d⟩ } := (rfl)

theorem State.respond_setSeeds (p : Seeds) (st : Status) (d : Word) :
    (s.setSeeds p).respond st d = { s with seed0 := p.1, seed1 := p.2, response := some ⟨st, d⟩ } := (rfl)

theorem State.respond_setPendingCap_setSeeds (p : Seeds) (o : Option Word) (st : Status) (d : Word) :
    ((s.setSeeds p).setPendingCap o).respond st d =
      { s with seed0 := p.1, seed1 := p.2, pendingCap := o, response := some ⟨st, d⟩ } := (rfl)

theorem State.setPendingCap_setSeeds (p : Seeds) (o : Option Word) :
    (s.setSeeds p).setPendingCap o = { s with seed0 := p.1, seed1 := p.2, pendingCap := o } := (rfl)

end Sys2Proof.Machine
end

