-- ==== Sys2Proof/Laws/Ops.lean ====
section
/-! SUPPORT. For each shared operation, once, everything it can do. -/

namespace Sys2Proof.Machine

theorem State.ifSeeded_of (s t : State) (h : s.seeded = true) : s.ifSeeded t = t := by
  simp [State.ifSeeded, h]

theorem State.ifSeeded_unseeded (s t : State) (h : s.seeded = false) : s.ifSeeded t = s.raise .unseeded := by
  simp [State.ifSeeded, h]

theorem State.ifModulus_of (s t : State) (m : Word) (h : m ≠ 0) : s.ifModulus m t = t :=
  if_neg h

@[simp] theorem State.ifModulus_zero (s t : State) : s.ifModulus 0 t = s.raise .divisionByZero := by
  simp [State.ifModulus]

@[simp] theorem attempt_state (m : Word) (s : State) : (attempt m s).1 = s.setSeeds (advanceOne s.seeds).1 := (rfl)

@[simp] theorem attempt_sample (m : Word) (s : State) : (attempt m s).2 = sample (advanceOne s.seeds).2 m := (rfl)

@[simp] theorem sample_bits (raw m : Word) : (sample raw m).bits = raw >>> 1 := (rfl)

@[simp] theorem sample_residue (raw m : Word) : (sample raw m).residue = (raw >>> 1) % m := (rfl)

/-- A rejected attempt: the command stays pending, the state is advanced. -/
theorem capAttempt_rejected (m : Word) (s : State) (ho : (sample (advanceOne s.seeds).2 m).overflowed = true)
    (hr : s.cfgRbs = true) :
    capAttempt m s = (s.setSeeds (advanceOne s.seeds).1).setPendingCap (some m) := by
  simp [capAttempt, ho, hr]

/-- An accepted attempt: the command completes with the residue. -/
theorem capAttempt_accepted (m : Word) (s : State)
    (h : s.cfgRbs = false ∨ (sample (advanceOne s.seeds).2 m).overflowed = false) :
    capAttempt m s =
      ((s.setSeeds (advanceOne s.seeds).1).setPendingCap none).respond .ok ((advanceOne s.seeds).2 >>> 1 % m) := by
  rcases h with h | h <;> simp [capAttempt, h]

theorem accept_legal (w : CmdWord) (i : Instr) (s : State) (h : decode w = .ok i) : accept w s = exec i s := by
  simp [accept, h]

theorem accept_illegal (w : CmdWord) (e : IllegalReason) (s : State) (h : decode w = .error e) :
    accept w s = .next (s.raise .illegalCommand) := by
  simp [accept, h]

theorem blockProgress_pending (s : State) (m : Word) (h : s.pendingCap = some m) :
    blockProgress s = .next (capAttempt m s) := by
  simp [blockProgress, h]

theorem blockProgress_idle (s : State) (h : s.pendingCap = none) : blockProgress s = .next s := by
  simp [blockProgress, h]

/-- The block's own progress always answers a next state. -/
theorem blockProgress_next (s : State) : ∃ t, blockProgress s = .next t := by
  unfold blockProgress
  split <;> exact ⟨_, rfl⟩

/-- No command stops the block: each answers a next state (R82). -/
theorem exec_next (i : Instr) (s : State) : ∃ t, exec i s = .next t := by
  cases i <;> exact ⟨_, rfl⟩

/-- Nor does any word. -/
theorem accept_next (w : CmdWord) (s : State) : ∃ t, accept w s = .next t := by
  unfold accept
  split
  · exact exec_next _ s
  · exact ⟨_, rfl⟩

theorem onSend_ready (w : CmdWord) (rest : List HostEvent) (s : State) (h : s.cmdReady = true) :
    onSend w rest s = accept w (s.setHost rest) := by
  simp [onSend, h]

theorem onSend_busy (w : CmdWord) (rest : List HostEvent) (s : State) (h : s.cmdReady = false) :
    onSend w rest s = blockProgress s := by
  simp [onSend, h]

theorem onTake_offered (rest : List HostEvent) (s : State) (r : Response) (h : s.response = some r) :
    onTake rest s = .next ((s.takeResponse r).setHost rest) := by
  simp [onTake, h]

theorem onTake_pending (rest : List HostEvent) (s : State) (m : Word) (h : s.response = none)
    (hp : s.pendingCap = some m) : onTake rest s = .next (capAttempt m s) := by
  simp [onTake, h, hp, blockProgress]

theorem onTake_nothing (rest : List HostEvent) (s : State) (h : s.response = none) (hp : s.pendingCap = none) :
    onTake rest s = .next (s.setHost rest) := by
  simp [onTake, h, hp]

/-- Everything an attempt of a `CAP` can do: it was rejected and the command is pending, or it completed the command. -/
theorem capAttempt_cases (m : Word) (s : State) :
    (s.cfgRbs = true ∧ (sample (advanceOne s.seeds).2 m).overflowed = true ∧
      capAttempt m s = (s.setSeeds (advanceOne s.seeds).1).setPendingCap (some m)) ∨
    ((s.cfgRbs = false ∨ (sample (advanceOne s.seeds).2 m).overflowed = false) ∧
      capAttempt m s =
        ((s.setSeeds (advanceOne s.seeds).1).setPendingCap none).respond .ok ((advanceOne s.seeds).2 >>> 1 % m)) := by
  by_cases h : s.cfgRbs = true ∧ (sample (advanceOne s.seeds).2 m).overflowed = true
  · exact .inl ⟨h.1, h.2, capAttempt_rejected m s h.2 h.1⟩
  · have h' : s.cfgRbs = false ∨ (sample (advanceOne s.seeds).2 m).overflowed = false := by
      by_cases hr : s.cfgRbs = true
      · exact .inr (by simpa [hr] using h)
      · exact .inl (by simpa using hr)
    exact .inr ⟨h', capAttempt_accepted m s h'⟩

theorem step_of_host_nil (s : State) (h : s.host = []) : step s = blockProgress s := by
  simp [step, portStep, h]

theorem step_of_send (s : State) (w : CmdWord) (rest : List HostEvent) (h : s.host = .send w :: rest) :
    step s = onSend w rest s := by
  simp [step, portStep, h]

theorem step_of_take (s : State) (rest : List HostEvent) (h : s.host = .take :: rest) : step s = onTake rest s := by
  simp [step, portStep, h]

theorem step_of_reset (s : State) (a b : Bool) (rest : List HostEvent) (h : s.host = .reset a b :: rest) :
    step s = .next ((s.applyReset a b).setHost rest) := by
  simp [step, portStep, h]

theorem step_of_straps (s : State) (a b : Bool) (rest : List HostEvent) (h : s.host = .straps a b :: rest) :
    step s = onStraps a b rest s := by
  simp [step, portStep, h]

theorem step_of_idle (s : State) (rest : List HostEvent) (h : s.host = .idle :: rest) :
    step s = blockProgress (s.setHost rest) := by
  simp [step, portStep, h]

/-- The word placed by `withFetchWord` is the one the next step accepts. -/
theorem step_withFetchWord (s : State) (nbits w : Nat) :
    step (s.withFetchWord nbits w) =
      accept (tableWord nbits w) ((s.offering (tableWord nbits w)).setHost s.host) := (rfl)

/-- Everything a step that answers a next state can have done: a word was accepted; the block went on by itself, with the
host's list as it was or without its head; a response was taken; the block was reset; or only the host's list moved on. -/
theorem step_cases {s t : State} (h : step s = .next t) :
    (∃ w rest, s.host = .send w :: rest ∧ s.cmdReady = true ∧ accept w (s.setHost rest) = .next t) ∨
    (∃ hs, (hs = s.host ∨ ∃ e, s.host = e :: hs) ∧ blockProgress (s.setHost hs) = .next t) ∨
    (∃ r rest, s.host = .take :: rest ∧ s.response = some r ∧ t = (s.takeResponse r).setHost rest) ∨
    (∃ a b rest, s.host = .reset a b :: rest ∧ t = (s.applyReset a b).setHost rest) ∨
    (∃ e rest, s.host = e :: rest ∧ t = s.setHost rest) := by
  have same : s.setHost s.host = s := (rfl)
  cases hh : s.host with
  | nil =>
    rw [step_of_host_nil s hh] at h
    exact .inr (.inl ⟨[], .inl rfl, by rw [← hh, same]; exact h⟩)
  | cons e rest =>
    cases e with
    | send w =>
      rw [step_of_send s w rest hh, onSend] at h
      split at h
      · exact .inl ⟨w, rest, rfl, ‹_›, h⟩
      · exact .inr (.inl ⟨_, .inl rfl, by rw [← hh, same]; exact h⟩)
    | take =>
      rw [step_of_take s rest hh, onTake] at h
      split at h
      · next r hr =>
        cases h
        exact .inr (.inr (.inl ⟨r, rest, rfl, hr, rfl⟩))
      · split at h
        · exact .inr (.inl ⟨_, .inl rfl, by rw [← hh, same]; exact h⟩)
        · cases h
          exact .inr (.inr (.inr (.inr ⟨_, rest, rfl, rfl⟩)))
    | reset a b =>
      rw [step_of_reset s a b rest hh] at h
      cases h
      exact .inr (.inr (.inr (.inl ⟨a, b, rest, rfl, rfl⟩)))
    | straps a b =>
      rw [step_of_straps s a b rest hh, onStraps] at h
      split at h
      · cases h
        exact .inr (.inr (.inr (.inr ⟨_, rest, rfl, rfl⟩)))
      · cases h
    | idle =>
      rw [step_of_idle s rest hh] at h
      exact .inr (.inl ⟨rest, .inr ⟨_, rfl⟩, h⟩)

end Sys2Proof.Machine
end

