-- ==== Sys2Proof/Laws/PerInstr.lean ====
section
/-! SUPPORT. For every command: the word it is encoded in holds its opcode and its operands in their fields (R34, R36). -/

namespace Sys2Proof.Laws.EncodedFields

/-- The fields of the encoded word. -/
def Statement (i : Instr) : Prop :=
  opField (encode i) = i.opcode ∧ aField (encode i) = i.aOperand ∧ bField (encode i) = i.bOperand

theorem hash (x : Word) : Statement (.hash x) := by simp [Statement, encode]
theorem ihash (x : Word) : Statement (.ihash x) := by simp [Statement, encode]
theorem seedpair (s0 s1 : Word) : Statement (.seedpair s0 s1) := by simp [Statement, encode]
theorem seed (s : Word) : Statement (.seed s) := by simp [Statement, encode]
theorem seed0 (s0 : Word) : Statement (.seed0 s0) := by simp [Statement, encode]
theorem seed1 (s1 : Word) : Statement (.seed1 s1) := by simp [Statement, encode]
theorem next : Statement .next := by simp [Statement, encode]
theorem adv (n : Count) : Statement (.adv n) := by simp [Statement, encode]
theorem ucap (m : Word) : Statement (.ucap m) := by simp [Statement, encode]
theorem cap (m : Word) : Statement (.cap m) := by simp [Statement, encode]

end Sys2Proof.Laws.EncodedFields
end

