-- ==== Sys2Proof/Laws/Run.lean ====
section
/-! SUPPORT. Running several steps: the first step and then the rest, two runs in a row; and a step while a `CAP` is pending. -/

namespace Sys2Proof.Machine

theorem run_zero (s : State) : run 0 s = .next s := (rfl)

theorem run_succ_of_step {s t : State} (k : Nat) (h : step s = .next t) : run (k + 1) s = run k t := by
  rw [run, h]

/-- A run that answers a state can be continued from it. -/
theorem run_add {a : Nat} {s t : State} (b : Nat) (h : run a s = .next t) : run (a + b) s = run b t := by
  induction a generalizing s with
  | zero =>
    rw [run_zero] at h
    cases h
    rw [Nat.zero_add]
  | succ a ih =>
    rw [run] at h
    cases hs : step s with
    | next u =>
      rw [hs] at h
      rw [Nat.add_right_comm, run_succ_of_step _ hs]
      exact ih h
    | fault r => simp [hs] at h
    | refused r => simp [hs] at h

theorem core_run_succ (M : Host.Core) (k : Nat) (s t : M.State) (h : M.step s = .next t) :
    M.run (k + 1) s = M.run k t := by
  rw [Host.Core.run, h]

theorem core_run_fault (M : Host.Core) (k : Nat) (s : M.State) (r : M.Fault) (h : M.step s = .fault r) :
    M.run (k + 1) s = .fault r := by
  rw [Host.Core.run, h]

theorem core_run_refused (M : Host.Core) (k : Nat) (s : M.State) (r : M.Refusal) (h : M.step s = .refused r) :
    M.run (k + 1) s = .refused r := by
  rw [Host.Core.run, h]

/-- `run` is the host's run of the machine. -/
theorem run_eq_core (k : Nat) (s : State) : run k s = Host.Core.run Sys2Proof.core k s := by
  induction k generalizing s with
  | zero => exact rfl
  | succ k ih =>
    rw [run]
    cases hs : step s with
    | next t => exact (ih t).trans (core_run_succ Sys2Proof.core k s t hs).symm
    | fault r => exact (core_run_fault Sys2Proof.core k s r hs).symm
    | refused r => exact (core_run_refused Sys2Proof.core k s r hs).symm

/-- While a `CAP` is pending and the host waits, a step is the next attempt and nothing else. -/
theorem step_of_pending {s : State} {m : Word} (hp : s.pendingCap = some m) (hr : s.response = none)
    (hw : hostWaits s.host = true) : step s = .next (capAttempt m s) := by
  have busy : s.cmdReady = false := by simp [State.cmdReady, hp]
  cases hh : s.host with
  | nil => rw [step_of_host_nil s hh, blockProgress_pending s m hp]
  | cons e rest =>
    cases e with
    | send w => rw [step_of_send s w rest hh, onSend_busy w rest s busy, blockProgress_pending s m hp]
    | take => rw [step_of_take s rest hh, onTake_pending rest s m hr hp]
    | reset a b => simp [hh, hostWaits] at hw
    | straps a b => simp [hh, hostWaits] at hw
    | idle => simp [hh, hostWaits] at hw

end Sys2Proof.Machine
end

