-- ==== Sys2Proof/Tests/Slice0.lean ====
section
/-! SUPPORT. Tests: expected values come from spec/95_test_vectors.md and the worked examples of the rules (each names its
source), and the witnesses that the statements' hypotheses can be met. -/

namespace Sys2Proof.Tests

open Sys2Proof Sys2Proof.Machine

/-! ## Well-formed words: the table and the reserved fields -/

-- spec/opcode_table.json: the match words and the masks of its rows, in order.
theorem test_match_words : opTable.map OpRow.matchWord =
    [0x1000000000000000000000000000000000, 0x1100000000000000000000000000000000,
     0x2000000000000000000000000000000000, 0x2100000000000000000000000000000000,
     0x2200000000000000000000000000000000, 0x2300000000000000000000000000000000,
     0x3000000000000000000000000000000000, 0x3100000000000000000000000000000000,
     0x4000000000000000000000000000000000, 0x4100000000000000000000000000000000] := by decide

theorem test_masks : [Format.a, .ab, .z, .n].map Format.mask =
    [0xff0000000000000000ffffffffffffffff, 0xff00000000000000000000000000000000,
     0xffffffffffffffffffffffffffffffffff, 0xffffffffff00000000ffffffffffffffff] := by decide

-- R38: no two rows share an opcode, so no word is two commands.
theorem test_rows_disjoint : (opTable.map OpRow.opcode).Nodup := by decide

-- One ill-formed word for each check (R38, V13).
theorem test_ill_formed_opcode : CmdWord.wellFormed 0x42_0000000000000005_0000000000000000 = false := by decide
theorem test_ill_formed_all_zero : CmdWord.wellFormed 0 = false := by decide
theorem test_ill_formed_a : CmdWord.wellFormed 0x10_0000000000000001_0000000000000001 = false := by decide
theorem test_ill_formed_z_a : CmdWord.wellFormed 0x30_0000000000000001_0000000000000000 = false := by decide
theorem test_ill_formed_z_b : CmdWord.wellFormed 0x30_0000000000000000_0000000000000001 = false := by decide
theorem test_ill_formed_n_high : CmdWord.wellFormed 0x31_0000000100000000_0000000000000000 = false := by decide
theorem test_ill_formed_n_b : CmdWord.wellFormed 0x31_000000000000000a_0000000000000001 = false := by decide

/-! ## Decoding: one word per command, written out from R36 and R37 (V13, R45, P2) -/

theorem test_decode_hash : decode 0x10_0000000000003039_0000000000000000 = .ok (.hash 12345) := by decide
theorem test_decode_ihash :
    decode 0x11_17d2abfbf90baef9_0000000000000000 = .ok (.ihash 0x17d2abfbf90baef9) := by decide
theorem test_decode_seedpair : decode 0x20_17d2abfbf90baef9_fc80cd1860e28208 =
    .ok (.seedpair 0x17d2abfbf90baef9 0xfc80cd1860e28208) := by decide
theorem test_decode_seed : decode 0x21_0000000000000000_0000000000000000 = .ok (.seed 0) := by decide
theorem test_decode_seed0 :
    decode 0x22_17d2abfbf90baef9_0000000000000000 = .ok (.seed0 0x17d2abfbf90baef9) := by decide
theorem test_decode_seed1 : decode 0x23_0000000000000001_0000000000000000 = .ok (.seed1 1) := by decide
theorem test_decode_next : decode 0x30_0000000000000000_0000000000000000 = .ok .next := by decide
theorem test_decode_adv : decode 0x31_00000000ffffffff_0000000000000000 = .ok (.adv 4294967295) := by decide
theorem test_decode_ucap : decode 0x40_0000000000000000_0000000000000000 = .ok (.ucap 0) := by decide
theorem test_decode_cap :
    decode 0x41_ffffffffffffffff_0000000000000000 = .ok (.cap 0xffffffffffffffff) := by decide

-- V13: illegal words, with the reason.
theorem test_decode_bad_opcode :
    decode 0xff_ffffffffffffffff_ffffffffffffffff = .error (.unknownOpcode 0xff) := by decide
theorem test_decode_bad_seed :
    decode 0x21_0000000000003039_8000000000000000 = .error (.reservedNotZero .a) := by decide
theorem test_decode_bad_adv :
    decode 0x31_0000000100000000_0000000000000000 = .error (.reservedNotZero .n) := by decide
theorem test_decode_bad_next :
    decode 0x30_0000000000000000_0000000000000001 = .error (.reservedNotZero .z) := by decide

-- R45: encodings written out.
theorem test_encode_adv : encode (.adv 10) = 0x31_000000000000000a_0000000000000000 := by decide
theorem test_encode_cap : encode (.cap 134) = 0x41_0000000000000086_0000000000000000 := by decide

-- The opcode table's numbering: the opcode is in the highest byte of the 136 bits.
theorem test_table_word : decodeTableWord 136 0x2300000000000000010000000000000000 = some (.seed1 1) := by decide

-- R41, R45: response words.
theorem test_response_word :
    (Response.mk .ok 0x132f6335332eaa34).toWord = 0x0_132f6335332eaa34 := by decide
theorem test_response_div0 : (Response.mk .div0 0).toWord = 0x1_0000000000000000 := by decide
theorem test_response_code_refused : Response.ofWord 0x4_0000000000000000 = none := by decide

/-! ## The functions (V1, V4, V5, V10) -/

theorem test_xs33 : xs33 0xffffffffffffffff = 0xffffffff80000000 ∧ xs33 0x0000000200000000 = 0x0000000200000001 := by
  decide
theorem test_hash : Machine.hash 12345 = 0x17d2abfbf90baef9 ∧ Machine.hash 0xffffffffffffffff = 0x64b5720b4b825f21 := by
  decide
theorem test_inverse_hash :
    inverseHash 0x17d2abfbf90baef9 = 12345 ∧ inverseHash 0xffffffffffffffff = 0x89a5850e63c5f8aa := by decide
theorem test_advance_one : advanceOne (0x0123456789abcdef, 0xfedcba9876543210) =
    ((0xfedcba9876543210, 0x4c3b73557711e6f7), 0x4b182deded661907) := by decide
theorem test_advance_one_wraps : advanceOne (0, 0x8000000000000000) =
    ((0x8000000000000000, 0x8000002000000000), 0x0000002000000000) := by decide
theorem test_advance : advance 10 (0xfc80cd1860e28208, 0x16ae961cd24c282c) =
    (0xf205159b83c28acc, 0x3b2f731e0f04cf8c) := by decide
theorem test_sample_overflow : sample 0xffffffffffffffff 0x8000000000000001 =
    ⟨0x7fffffffffffffff, 0x7fffffffffffffff, true⟩ := by decide
theorem test_sample_no_overflow : sample 0xffffffffffffffff 0x8000000000000000 =
    ⟨0x7fffffffffffffff, 0x7fffffffffffffff, false⟩ := by decide
theorem test_subst0 : subst0 true 0 = 0x8000000000000000 ∧ subst0 false 0 = 0 ∧ subst0 true 1 = 1 := by decide

/-! ## One step of each command -/

/-- A seeded, idle block with the seeds and the strap `CFG.RBS` given. -/
def block (a b : Word) (rbs : Bool) (h : List HostEvent) : State where
  seed0 := a
  seed1 := b
  seeded := true
  cfgSzs := true
  cfgRbs := rbs
  pendingCap := none
  response := none
  host := h
  taken := []
  resets := 0

/-- An idle block right after reset, with the host's list given. -/
def fresh (h : List HostEvent) : State := State.reset.setHost h

/-- The seeds, the response and the pending `CAP` of an outcome: what a test looks at. -/
def seen : Host.Outcome State Fault Refusal → Option (Seeds × Option RspWord × Option Word)
  | .next t => some (t.seeds, t.rspWord, t.pendingCap)
  | .fault _ => none
  | .refused _ => none

/-- The response and the flag of an outcome, for a block that need not be seeded. -/
def answered : Host.Outcome State Fault Refusal → Option (Option RspWord × Bool)
  | .next t => some (t.rspWord, t.seeded)
  | .fault _ => none
  | .refused _ => none

-- P4, step 4, and P5, step 1: HASH on an unseeded block.
theorem test_hash_unseeded : answered (step (fresh [.send 0x10_0000000000000001_0000000000000000])) =
    some (some 0x0_b456bcfc34c2cb2c, false) := by decide
-- P5, step 5.
theorem test_ihash : seen (step (block 1 2 true [.send 0x11_17d2abfbf90baef9_0000000000000000])) =
    some ((1, 2), some 0x0_0000000000003039, none) := by decide
-- V8: SEEDPAIR 0, 0 is accepted whatever the straps.
theorem test_seedpair : seen (step (fresh [.send 0x20_0000000000000001_0000000000000000])) =
    some ((1, 0), some 0, none) := by decide
-- P1, step 1, from reset under any straps.
theorem test_seed : seen (step (fresh [.send 0x21_0000000000003039_0000000000000000])) =
    some ((0x17d2abfbf90baef9, 0xfc80cd1860e28208), some 0, none) := by decide
-- V8: SEED 0 with SZS = 1.
theorem test_seed_zero : seen (step (block 1 2 true [.send 0x21_0000000000000000_0000000000000000])) =
    some ((0x8f780810af31a493, 0xd1f9a22af8e83383), some 0, none) := by decide
-- V8: SEED0 0 with SZS = 1 is not substituted.
theorem test_seed0_zero : seen (step (block 1 2 true [.send 0x22_0000000000000000_0000000000000000])) =
    some ((0, 0), some 0, none) := by decide
theorem test_seed0 : seen (step (fresh [.send 0x22_17d2abfbf90baef9_0000000000000000])) =
    some ((0x17d2abfbf90baef9, 0xfc80cd1860e28208), some 0, none) := by decide
-- V8: SEED1 1.
theorem test_seed1 : seen (step (fresh [.send 0x23_0000000000000001_0000000000000000])) =
    some ((0x50bf096683646df0, 1), some 0, none) := by decide
-- P1, step 2: the source's first golden value.
theorem test_next :
    seen (step (block 0x17d2abfbf90baef9 0xfc80cd1860e28208 true [.send 0x30_0000000000000000_0000000000000000])) =
      some ((0xfc80cd1860e28208, 0x16ae961cd24c282c), some 0x0_132f6335332eaa34, none) := by decide
-- P4, step 1.
theorem test_next_unseeded : answered (step (fresh [.send 0x30_0000000000000000_0000000000000000])) =
    some (some 0x3_0000000000000000, false) := by decide
-- P1, step 3.
theorem test_adv :
    seen (step (block 0xfc80cd1860e28208 0x16ae961cd24c282c true [.send 0x31_000000000000000a_0000000000000000])) =
      some ((0xf205159b83c28acc, 0x3b2f731e0f04cf8c), some 0, none) := by decide
-- P4, step 3: ADV 0 on an unseeded block.
theorem test_adv_unseeded : answered (step (fresh [.send 0x31_0000000000000000_0000000000000000])) =
    some (some 0x3_0000000000000000, false) := by decide
-- V11: UCAP 0xc000000000000000 from k = 2 keeps its overflowed draw.
theorem test_ucap_overflow :
    seen (step (block 0x16ae961cd24c282c 0x661e121843279f61 true [.send 0x40_c000000000000000_0000000000000000])) =
      some ((0x661e121843279f61, 0x7ed9ae6ad8eb537b), some 0x0_727be0418e09796e, none) := by decide
-- P4, step 6.
theorem test_ucap_zero : seen (step (block 1 0 true [.send 0x40_0000000000000000_0000000000000000])) =
    some ((1, 0), some 0x1_0000000000000000, none) := by decide
-- P7, step 2, RBS = 1: the first of the two attempts is rejected.
theorem test_cap_rejected :
    seen (step (block 0x181c4fcfc79fe00f 0xffffffffffffffff true [.send 0x41_8000000000000001_0000000000000000])) =
      some ((0xffffffffffffffff, 0), none, some 0x8000000000000001) := by decide
-- P7, step 2, RBS = 0: one attempt.
theorem test_cap_no_reroll :
    seen (step (block 0x181c4fcfc79fe00f 0xffffffffffffffff false [.send 0x41_8000000000000001_0000000000000000])) =
      some ((0xffffffffffffffff, 0), some 0x0_7fffffffffffffff, none) := by decide
-- P7, step 2, RBS = 1: the second attempt is accepted.
theorem test_cap_second_attempt :
    seen (step ((block 0xffffffffffffffff 0 true []).setPendingCap (some 0x8000000000000001))) =
      some ((0, 0x7fffc0), some 0x0_00000000003fffe0, none) := by decide
-- P4, step 2: UNSEEDED beats DIV0; step 9: ILLEGAL beats DIV0.
theorem test_cap_priority_unseeded : answered (step (fresh [.send 0x41_0000000000000000_0000000000000000])) =
    some (some 0x3_0000000000000000, false) := by decide
theorem test_cap_priority_illegal : seen (step (block 1 0 true [.send 0x41_0000000000000000_0000000000000001])) =
    some ((1, 0), some 0x2_0000000000000000, none) := by decide

/-! ## The ports -/

-- R93: a word held out while a response waits is not accepted.
theorem test_busy_not_accepted :
    step ((block 1 2 true [.send (encode .next)]).respond .ok 7) =
      .next ((block 1 2 true [.send (encode .next)]).respond .ok 7) := by
  rfl
-- R92: taking.
theorem test_take : answered (step ((block 1 2 true [.take]).respond .ok 7)) = some (none, true) := by decide
-- R88: reset ends a pending CAP.
theorem test_reset_ends_cap :
    answered (step ((block 1 2 true [.reset false false]).setPendingCap (some 0xffffffffffffffff))) =
      some (none, false) := by decide
-- withFetchWord: the very next step runs the word, from reset.
theorem test_with_fetch_word :
    answered (step (State.reset.withFetchWord 136 0x1000000000000030390000000000000000)) =
      some (some 0x0_17d2abfbf90baef9, false) := by decide

/-! ## The assembler (R43 to R45) -/

theorem test_assemble_seed : (assemble "seed 12345 ; the golden seed").toOption =
    some 0x21_0000000000003039_0000000000000000 := by decide
theorem test_assemble_pair : (assemble "SEEDPAIR 0x17d2abfbf90baef9, 0xfc80cd1860e28208").toOption =
    some 0x20_17d2abfbf90baef9_fc80cd1860e28208 := by decide
-- R43: "-5355119237153046436 is 0xb5aecb6d2ba1c05c".
theorem test_assemble_negative : (assembleChars "HASH -5355119237153046436".toList).toOption =
    some (.hash 0xb5aecb6d2ba1c05c) := by decide
-- R43: out of range, never truncated.
theorem test_assemble_range : (assembleChars "ADV 4294967296".toList).toOption = none := by decide
theorem test_assemble_count : (assembleChars "NEXT 1".toList).toOption = none := by decide

/-! ## Witnesses: for every statement with hypotheses, values that meet them -/

theorem witness_EncodeOfDecode : decode (encode (.adv 4294967295)) = .ok (.adv 4294967295) := by decide

theorem witness_AcceptingRowIsTheCommandsRow :
    (⟨"ADV", 0x31, .n⟩ : OpRow) ∈ opTable ∧
    (⟨"ADV", 0x31, .n⟩ : OpRow).accepts 0x31_00000000ffffffff_0000000000000000 = true ∧
    decode 0x31_00000000ffffffff_0000000000000000 = .ok (.adv 4294967295) := by decide

theorem witness_IllegalWordsAnswerIllegal :
    (block 1 2 true [.send 0x42_0000000000000005_0000000000000000]).cmdReady = true ∧
    CmdWord.wellFormed 0x42_0000000000000005_0000000000000000 = false ∧
    accept 0x42_0000000000000005_0000000000000000 (block 1 2 true []) =
      .next ((block 1 2 true []).respond .illegal 0) := by
  exact ⟨by decide, by decide, rfl⟩

-- With a response offered and without.
theorem witness_ResponseWordHoldsStatusAndData :
    ((block 1 2 true []).respond .div0 0).response = some ⟨.div0, 0⟩ ∧
    ((block 1 2 true []).respond .div0 0).rspWord = some 0x1_0000000000000000 ∧
    (block 1 2 true []).rspWord = none := by decide

-- A pseudo-instruction in small letters, with blanks around it, a tab before its operand and a comment; one with a comment
-- directly after it.
theorem witness_PseudoInstructionsExpand :
    ("NEW", "SEED") ∈ [("NEW", "SEED"), ("FROMPAIR", "SEEDPAIR"), ("NEXTU64", "NEXT"), ("ADVANCE", "ADV"),
      ("NEXTCAPPEDU64", "CAP"), ("UNCHECKEDNEXTCAPPEDU64", "UCAP")] ∧
    (mnemonicOf "  new\t12345 ; seed".toList).map upper = "NEW".toList ∧
    (mnemonicOf "Seed\t12345".toList).map upper = "SEED".toList ∧
    operandText "Seed\t12345".toList = operandText "  new\t12345 ; seed".toList ∧
    (mnemonicOf "advanceOne;".toList).map upper = "ADVANCEONE".toList ∧ operandText "advanceOne;".toList = [] ∧
    (mnemonicOf " AdvanceOne 1".toList).map upper = "ADVANCEONE".toList ∧
    operandText " AdvanceOne 1".toList ≠ [] := by decide

theorem witness_AssemblerEmitsLegalWords : (assemble "CAP 134").toOption = some (encode (.cap 134)) := by decide

theorem witness_XorShiftKeepsUpperBits : 31 ≤ 31 ∧ 31 < 64 ∧ 31 ≤ 63 ∧ 63 < 64 ∧ 30 < 31 ∧ 0 < 31 := by decide

theorem witness_HashPairIsInverse : (0xff51afd7ed558ccd : Word) * 0x4f74430c22a54005 = 1 := by decide

-- V4: the new second word by clause (iii), from the seeds of test_advance_one.
theorem witness_TransitionIdentities :
    let t := (0x0123456789abcdef : Word) ^^^ (0x0123456789abcdef <<< 23)
    (t ^^^ (t >>> 17)) ^^^ 0xfedcba9876543210 ^^^ ((0xfedcba9876543210 : Word) >>> 26) = 0x4c3b73557711e6f7 := by decide

theorem witness_ZeroSeedsStayZero :
    (block 0 0 true []).seeded = true ∧ (block 0 0 true []).seed0 = 0 ∧ (block 0 0 true []).seed1 = 0 ∧
    (block 0 0 true []).pendingCap = none ∧ (0xffffffffffffffff : Word) ≠ 0 ∧ (1 : Word) ≠ 0 := by decide

-- For NextAnswersDraw, AdvLeavesTheIterate and AdvThenNextIsLastOfNexts, whose one hypothesis this is.
theorem witness_seeded : (block 1 2 true []).seeded = true := by decide

theorem witness_AdvCountsAdd :
    (block 1 2 true []).seeded = true ∧ (4294967295 : Count).toNat + (0 : Count).toNat < 2 ^ 32 ∧
    (1 : Count).toNat + (4294967294 : Count).toNat < 2 ^ 32 := by decide

theorem witness_PureAndSeedCommandsAreIdempotent :
    (Instr.hash 1).opcode.toNat < 0x30 ∧ (Instr.seed1 1).opcode.toNat < 0x30 ∧
    (∃ t, exec (.hash 1) (block 1 2 true []) = .next t) ∧ (∃ t, exec (.seed1 1) (block 1 2 true []) = .next t) :=
  ⟨by decide, by decide, exec_next _ _, exec_next _ _⟩

theorem witness_OverflowIsTrueSum :
    (0x8000000000000000 : Word) ≠ 0 ∧ (0x8000000000000000 : Word).toNat ≤ 2 ^ 63 ∧
    (0x8000000000000001 : Word) ≠ 0 ∧ 2 ^ 63 < (0x8000000000000001 : Word).toNat := by decide

theorem witness_UcapAnswersResidue : (block 1 2 true []).seeded = true ∧ (1 : Word) ≠ 0 := by decide

theorem witness_CappedDataIsBounded :
    (block 0 0 true []).response = none ∧
    seen (exec (.ucap 134) (block 0 0 true [])) = some ((0, 0), some 0, none) ∧
    seen (exec (.cap 134) (block 0 0 true [])) = some ((0, 0), some 0, none) := by decide

-- P7, step 2: pending after its first attempt, at the smallest modulus that can be; test_cap_second_attempt is its next step.
theorem witness_CappedDataIsBounded_pending :
    ((block 0xffffffffffffffff 0 true []).setPendingCap (some 0x8000000000000001)).inv = true ∧
    ((block 0xffffffffffffffff 0 true []).setPendingCap (some 0x8000000000000001)).pendingCap =
      some 0x8000000000000001 ∧
    (step ((block 0xffffffffffffffff 0 true []).setPendingCap (some 0x8000000000000001)) =
      .next (((block 0xffffffffffffffff 0 true []).setSeeds (0, 0x7fffc0)).respond .ok 0x3fffe0)) :=
  ⟨by decide, by decide, by rfl⟩

-- The three grounds of CapCompletesWhenAccepted: no reroll; the largest modulus that never overflows; V10, a draw below the
-- limit of a larger modulus (bits = 0).
theorem witness_CapCompletesWhenAccepted :
    (block 1 2 false []).seeded = true ∧ (0xffffffffffffffff : Word) ≠ 0 ∧ (0x8000000000000000 : Word) ≠ 0 ∧
    (block 0 0 true []).seeded = true ∧ (block 1 2 false []).cfgRbs = false ∧ (0x8000000000000000 : Word).toNat ≤ 2 ^ 63 ∧
    (((block 0 0 true []).seed1 + (advanceOne (0, 0)).1.2) >>> 1).toNat + (0xffffffffffffffff : Word).toNat < 2 ^ 64 := by
  decide

-- P7: the draw after these seeds is all ones.
theorem witness_CapRejectedStaysPending :
    let s := block 0x181c4fcfc79fe00f 0xffffffffffffffff true []
    s.seeded = true ∧ s.cfgRbs = true ∧
    2 ^ 64 ≤ ((s.seed1 + (advanceOne (s.seed0, s.seed1)).1.2) >>> 1).toNat + (0x8000000000000001 : Word).toNat := by decide

theorem witness_CapIsUcapWithoutReroll :
    (block 1 2 false []).pendingCap = none ∧ (block 1 2 false []).cfgRbs = false ∧
    (0x8000000000000000 : Word).toNat ≤ 2 ^ 63 := by decide

-- V11: from (0, 0) the largest modulus accepts its first draw.
theorem witness_CapAcceptsBelowTheLimit :
    (block 0 0 true []).cfgRbs = true ∧ 2 ^ 63 < (0xffffffffffffffff : Word).toNat ∧ (block 0 0 true []).response = none ∧
    seen (exec (.cap 0xffffffffffffffff) (block 0 0 true [])) = some ((0, 0), some 0, none) := by decide

-- The largest modulus, pending on a block whose every draw is 0 (R58): its next attempt answers 0, the only data below 1.
theorem witness_CapAcceptsBelowTheLimit_pending :
    ((block 0 0 true [.take]).setPendingCap (some 0xffffffffffffffff)).inv = true ∧
    step ((block 0 0 true [.take]).setPendingCap (some 0xffffffffffffffff)) =
      .next ((block 0 0 true [.take]).respond .ok 0) := ⟨by decide, by rfl⟩

/-- P6, step 4: the block before the `CAP` that takes three attempts, the host going on to take and to send. -/
def threeAttempts : State :=
  block 0x16ae961cd24c282c 0x661e121843279f61 true [.send (encode (.cap 0xc000000000000000)), .take, .send 0]

-- The three ways a host waits.
theorem witness_hostWaits :
    hostWaits [] = true ∧ hostWaits [.take, .send 0] = true ∧ hostWaits [.send 0] = true := by decide

-- V11: draws 3 and 4 are rejected, draw 5 is accepted.
theorem witness_CapCompletesAtFirstAccepted :
    threeAttempts.seeded = true ∧ threeAttempts.cfgRbs = true ∧ (0xc000000000000000 : Word) ≠ 0 ∧
    threeAttempts.cmdReady = true ∧ threeAttempts.host = [.send (encode (.cap 0xc000000000000000)), .take, .send 0] ∧
    hostWaits [.take, .send 0] = true ∧
    (∀ k, k < 2 → overflowsAfter 0xc000000000000000 k threeAttempts.seeds = true) ∧
    overflowsAfter 0xc000000000000000 2 threeAttempts.seeds = false := by decide

theorem witness_CapStaysPendingWhileRejected :
    threeAttempts.seeded = true ∧ threeAttempts.cfgRbs = true ∧ threeAttempts.cmdReady = true ∧
    threeAttempts.host = [.send (encode (.cap 0xc000000000000000)), .take, .send 0] ∧
    hostWaits [.take, .send 0] = true ∧
    (∀ i, i ≤ 1 → overflowsAfter 0xc000000000000000 i threeAttempts.seeds = true) := by decide

theorem witness_CapAnswersIffSomeAttemptAccepted :
    threeAttempts.seeded = true ∧ threeAttempts.cfgRbs = true ∧ (0xc000000000000000 : Word) ≠ 0 ∧
    threeAttempts.cmdReady = true ∧ threeAttempts.host = [.send (encode (.cap 0xc000000000000000)), .take, .send 0] ∧
    hostWaits [.take, .send 0] = true := by decide

theorem witness_UnseededDrawsAnswerUnseeded :
    0x30 ≤ Instr.next.opcode.toNat ∧ 0x30 ≤ (Instr.adv 0).opcode.toNat ∧ 0x30 ≤ (Instr.ucap 0).opcode.toNat ∧
    0x30 ≤ (Instr.cap 0).opcode.toNat ∧ State.reset.seeded = false := by decide

theorem witness_ModulusZeroAnswersDivZero :
    (block 1 0 true []).seeded = true ∧ (block 1 0 true []).response = none ∧
    seen (exec (.ucap 0) (block 1 0 true [])) = some ((1, 0), some 0x1_0000000000000000, none) := by decide

theorem witness_ErrorsWriteNothing :
    (block 1 0 true []).response = none ∧
    accept (encode (.cap 0)) (block 1 0 true []) = .next ((block 1 0 true []).respond .div0 0) ∧ Status.div0 ≠ .ok :=
  ⟨by decide, rfl, by decide⟩

theorem witness_ChecksComeInOrder :
    CmdWord.wellFormed 0x30_0000000000000001_0000000000000000 = false ∧
    ((0x40 : BitVec 8) = 0x40 ∨ (0x40 : BitVec 8) = 0x41) ∧ ((0x41 : BitVec 8) = 0x40 ∨ (0x41 : BitVec 8) = 0x41) := by
  decide

theorem witness_CommandsLeaveTheRest :
    (∃ t, exec (.hash 1) (block 1 2 true []) = .next t) ∧ (Instr.hash 1).opcode.toNat < 0x20 ∧
    0x30 ≤ (Instr.cap 1).opcode.toNat ∧ Instr.next.opcode ≠ 0x41 :=
  ⟨exec_next _ _, by decide, by decide, by decide⟩

-- A seeded block that stays seeded; a fresh one that SEED1 seeds.
theorem witness_SeededChangesOnlyAsSaid :
    (block 1 2 true [.idle]).resetNext = false ∧ (block 1 2 true [.idle]).seeded = true ∧
    (∃ t, step (block 1 2 true [.idle]) = .next t) ∧
    (fresh [.send (encode (.seed1 1))]).resetNext = false ∧ (fresh [.send (encode (.seed1 1))]).seeded = false ∧
    answered (step (fresh [.send (encode (.seed1 1))])) = some (some 0, true) :=
  ⟨by decide, by decide, ⟨_, rfl⟩, by decide, by decide, by decide⟩

theorem witness_StrapsHoldOutOfReset :
    (block 1 2 true [.straps true true]).resetNext = false ∧
    step (block 1 2 true [.straps true true]) = .next (block 1 2 true []) := ⟨by decide, rfl⟩

theorem witness_StrapChangeStops :
    (block 1 2 true [.straps true false]).host = [.straps true false] ∧
    (false ≠ (block 1 2 true [.straps true false]).cfgRbs) ∧
    (false ≠ (block 1 2 true [.straps false true]).cfgSzs) := by decide

theorem witness_StrapKeepingHostNeverStops :
    strapsKept true true [.straps true true, .send 0, .take, .reset false true, .straps false true, .idle] = true := by
  decide

-- A pending CAP, and taken responses, that meet the invariant.
theorem witness_StepKeepsInvariant :
    ((block 1 2 true []).setPendingCap (some 0x8000000000000001)).inv = true ∧
    (∃ t, step ((block 1 2 true []).setPendingCap (some 0x8000000000000001)) = .next t) :=
  ⟨by decide, ⟨_, rfl⟩⟩

theorem witness_ResetDropsEverything :
    ((block 1 2 true [.reset false true, .idle]).setPendingCap (some 0x8000000000000001)).host =
      [.reset false true, .idle] := by decide

theorem witness_ResetForgetsProgress :
    (block 1 2 true [.reset false true]).resetNext = true ∧
    (block 1 2 true [.reset false true]).host = ((fresh [.reset false true]).respond .ok 5).host ∧
    (block 1 2 true [.reset false true]).taken = ((fresh [.reset false true]).respond .ok 5).taken ∧
    (block 1 2 true [.reset false true]).resets = ((fresh [.reset false true]).respond .ok 5).resets := by decide

theorem witness_UnseededSeedsMakeNoDifference :
    (State.reset.setSeeds (1, 2)).inv = true ∧ SameToHost (State.reset.setSeeds (1, 2)) (State.reset.setSeeds (3, 4)) := by
  refine ⟨by decide, ?_⟩
  simp [SameToHost, State.reset]

theorem witness_StepRunsSentCommand :
    (block 1 2 true [.send (encode .next)]).cmdReady = true ∧ decode (encode .next) = .ok .next := by decide

-- Not ready for either reason.
theorem witness_BusyBlockAcceptsNothing :
    ((block 1 2 true [.send 0]).respond .ok 7).cmdReady = false ∧
    ((block 1 2 true [.send 0]).respond .ok 7).pendingCap = none ∧
    ((block 1 2 true [.send 0]).setPendingCap (some 0x8000000000000001)).cmdReady = false := by decide

-- One state for each clause: a response offered, a CAP pending, neither.
theorem witness_TakingDeliversResponse :
    ((block 1 2 true [.take]).respond .ok 7).response = some ⟨.ok, 7⟩ ∧
    ((block 1 2 true [.take]).setPendingCap (some 0x8000000000000001)).response = none ∧
    ((block 1 2 true [.take]).setPendingCap (some 0x8000000000000001)).pendingCap = some 0x8000000000000001 ∧
    (block 1 2 true [.take]).response = none ∧ (block 1 2 true [.take]).pendingCap = none := by decide

theorem witness_ResponseHeldUntilTaken :
    ((block 1 2 true [.idle]).respond .ok 7).inv = true ∧
    ((block 1 2 true [.idle]).respond .ok 7).response = some ⟨.ok, 7⟩ ∧
    ((block 1 2 true [.idle]).respond .ok 7).resetNext = false ∧
    (∀ rest, ((block 1 2 true [.idle]).respond .ok 7).host ≠ .take :: rest) ∧
    (∃ t, step ((block 1 2 true [.idle]).respond .ok 7) = .next t) :=
  ⟨by decide, by decide, by decide, by simp [block], ⟨_, rfl⟩⟩

theorem witness_AcceptedWordIsAnsweredOrPending : (block 1 2 true []).cmdReady = true := by decide

theorem witness_CommandAndResponseRoundTrip :
    (block 1 2 true [.send (encode (.ucap 0)), .take]).cmdReady = true ∧
    accept (encode (.ucap 0)) (block 1 2 true [.take]) = .next ((block 1 2 true [.take]).respond .div0 0) ∧
    ((block 1 2 true [.take]).respond .div0 0).pendingCap = none := ⟨by decide, rfl, by decide⟩

theorem witness_IdleBlockDoesNotChange : (block 1 2 true []).host = [] ∧ (block 1 2 true []).pendingCap = none := by
  decide

end Sys2Proof.Tests
end

section
/-! PROOFS. What each command does, as updates of the state, and what every command leaves unchanged. -/

namespace Sys2Proof.Machine

/-! ## Each command as updates of the state -/

@[simp] theorem exec_hash_eq (x : Word) (s : State) : exec (.hash x) s = .next (s.respond .ok (hash x)) := (rfl)

@[simp] theorem exec_ihash_eq (x : Word) (s : State) :
    exec (.ihash x) s = .next (s.respond .ok (inverseHash x)) := (rfl)

@[simp] theorem exec_seedpair_eq (a b : Word) (s : State) :
    exec (.seedpair a b) s = .next ((s.construct a b).respond .ok 0) := (rfl)

@[simp] theorem exec_seed_eq (v : Word) (s : State) :
    exec (.seed v) s =
      .next ((s.construct (hash (subst0 s.cfgSzs v)) (hash (hash (subst0 s.cfgSzs v)))).respond .ok 0) := (rfl)

@[simp] theorem exec_seed0_eq (a : Word) (s : State) :
    exec (.seed0 a) s = .next ((s.construct a (hash a)).respond .ok 0) := (rfl)

@[simp] theorem exec_seed1_eq (b : Word) (s : State) :
    exec (.seed1 b) s = .next ((s.construct (inverseHash b) (hash (inverseHash b))).respond .ok 0) := (rfl)

@[simp] theorem exec_next_eq (s : State) :
    exec .next s =
      .next (s.ifSeeded ((s.setSeeds (advanceOne s.seeds).1).respond .ok (advanceOne s.seeds).2)) := (rfl)

@[simp] theorem exec_adv_eq (n : Count) (s : State) :
    exec (.adv n) s = .next (s.ifSeeded ((s.setSeeds (advance (countSteps n) s.seeds)).respond .ok 0)) := (rfl)

@[simp] theorem exec_ucap_eq (m : Word) (s : State) :
    exec (.ucap m) s = .next (s.ifSeeded (s.ifModulus m
      ((s.setSeeds (advanceOne s.seeds).1).respond .ok (sample (advanceOne s.seeds).2 m).residue))) := (rfl)

@[simp] theorem exec_cap_eq (m : Word) (s : State) :
    exec (.cap m) s = .next (s.ifSeeded (s.ifModulus m (capAttempt m s))) := (rfl)

/-! ## Everything a command, a word and the block's own progress can do -/

/-- A draw checks `seeded` (R79): it answers an error, or goes on. -/
theorem State.ifSeeded_cases (s u : State) :
    (s.seeded = true ∧ s.ifSeeded u = u) ∨ (s.seeded = false ∧ s.ifSeeded u = s.raise .unseeded) := by
  cases h : s.seeded with
  | true => exact .inl ⟨rfl, s.ifSeeded_of u h⟩
  | false => exact .inr ⟨rfl, s.ifSeeded_unseeded u h⟩

/-- A draw with a modulus checks `seeded` and then the modulus (R79, R70): it answers an error and changes nothing else, or
goes on in a seeded block. -/
theorem State.ifSeeded_ifModulus_cases (s u : State) (m : Word) :
    (∃ e, s.ifSeeded (s.ifModulus m u) = s.raise e) ∨
    (s.seeded = true ∧ s.ifSeeded (s.ifModulus m u) = u) := by
  rcases s.ifSeeded_cases (s.ifModulus m u) with ⟨hs, hu⟩ | ⟨-, hu⟩
  · by_cases hm : m = 0
    · exact .inl ⟨.divisionByZero, by rw [hu, hm, State.ifModulus_zero]⟩
    · exact .inr ⟨hs, by rw [hu, State.ifModulus_of _ _ _ hm]⟩
  · exact .inl ⟨.unseeded, hu⟩

/-- Everything a command can do: it only answers; it constructs a generator, being a seed command; it draws from a seeded
generator; or it is a `CAP` that makes an attempt on a seeded block. -/
theorem exec_cases {i : Instr} {s t : State} (h : exec i s = .next t) :
    (∃ st d, t = s.respond st d) ∨
    (0x20 ≤ i.opcode.toNat ∧ i.opcode.toNat < 0x30 ∧ ∃ a b, t = (s.construct a b).respond .ok 0) ∨
    (0x30 ≤ i.opcode.toNat ∧ s.seeded = true ∧ ∃ p d, t = (s.setSeeds p).respond .ok d) ∨
    (∃ m, i = .cap m ∧ s.seeded = true ∧ t = capAttempt m s) := by
  cases i with
  | hash _ | ihash _ =>
    simp only [exec_hash_eq, exec_ihash_eq, Host.Outcome.next.injEq] at h
    subst h
    exact .inl ⟨_, _, rfl⟩
  | seedpair _ _ | seed _ | seed0 _ | seed1 _ =>
    simp only [exec_seedpair_eq, exec_seed_eq, exec_seed0_eq, exec_seed1_eq, Host.Outcome.next.injEq] at h
    subst h
    exact .inr (.inl ⟨by simp [Instr.opcode], by simp [Instr.opcode], _, _, rfl⟩)
  | next | adv _ =>
    simp only [exec_next_eq, exec_adv_eq, Host.Outcome.next.injEq] at h
    subst h
    rcases s.ifSeeded_cases _ with ⟨hs, hu⟩ | ⟨-, hu⟩
    · exact .inr (.inr (.inl ⟨by simp [Instr.opcode], hs, _, _, hu⟩))
    · exact .inl ⟨_, _, hu⟩
  | ucap m =>
    rw [exec_ucap_eq] at h
    cases h
    rcases s.ifSeeded_ifModulus_cases _ m with ⟨_, hu⟩ | ⟨hs, hu⟩
    · exact .inl ⟨_, _, hu⟩
    · exact .inr (.inr (.inl ⟨by simp [Instr.opcode], hs, _, _, hu⟩))
  | cap m =>
    rw [exec_cap_eq] at h
    cases h
    rcases s.ifSeeded_ifModulus_cases _ m with ⟨_, hu⟩ | ⟨hs, hu⟩
    · exact .inl ⟨_, _, hu⟩
    · exact .inr (.inr (.inr ⟨m, rfl, hs, hu⟩))

/-- Everything an accepted word can do: it is a command that is executed, or it is illegal. -/
theorem accept_cases {w : CmdWord} {s t : State} (h : accept w s = .next t) :
    (∃ i, decode w = .ok i ∧ exec i s = .next t) ∨ t = s.raise .illegalCommand := by
  cases hd : decode w with
  | ok i => exact .inl ⟨i, rfl, by rw [← accept_legal w i s hd, h]⟩
  | error e =>
    rw [accept_illegal w e s hd] at h
    cases h
    exact .inr rfl

/-- Everything the block can do by itself: an attempt of the pending `CAP`, or nothing. -/
theorem blockProgress_cases {s t : State} (h : blockProgress s = .next t) :
    (∃ m, s.pendingCap = some m ∧ t = capAttempt m s) ∨ (s.pendingCap = none ∧ t = s) := by
  cases hp : s.pendingCap with
  | none =>
    rw [blockProgress_idle s hp] at h
    cases h
    exact .inr ⟨rfl, rfl⟩
  | some m =>
    rw [blockProgress_pending s m hp] at h
    cases h
    exact .inl ⟨m, rfl, rfl⟩

/-! ## The frame of the commands (R14, R17) -/

/-- What no command writes: the straps, the host's list, the responses taken and the count of resets. -/
structure CommandFrame (s t : State) : Prop where
  cfgSzs : t.cfgSzs = s.cfgSzs
  cfgRbs : t.cfgRbs = s.cfgRbs
  host : t.host = s.host
  taken : t.taken = s.taken
  resets : t.resets = s.resets

/-- An attempt of a `CAP` writes the seeds, the pending command and the response, and nothing else (R68, R72). -/
theorem capAttempt_frame (m : Word) (s : State) : CommandFrame s (capAttempt m s) := by
  rcases capAttempt_cases m s with ⟨-, -, hu⟩ | ⟨-, hu⟩ <;> rw [hu] <;> constructor <;> simp

@[simp] theorem capAttempt_seeded (m : Word) (s : State) : (capAttempt m s).seeded = s.seeded := by
  rcases capAttempt_cases m s with ⟨-, -, hu⟩ | ⟨-, hu⟩ <;> simp [hu]

theorem exec_frame {i : Instr} {s t : State} (h : exec i s = .next t) : CommandFrame s t := by
  rcases exec_cases h with ⟨_, _, rfl⟩ | ⟨-, -, _, _, rfl⟩ | ⟨-, -, _, _, rfl⟩ | ⟨m, -, -, rfl⟩
  · constructor <;> simp
  · constructor <;> simp
  · constructor <;> simp
  · exact capAttempt_frame m s

theorem accept_frame {w : CmdWord} {s t : State} (h : accept w s = .next t) : CommandFrame s t := by
  rcases accept_cases h with ⟨_, -, hi⟩ | rfl
  · exact exec_frame hi
  · constructor <;> simp

theorem blockProgress_frame {s t : State} (h : blockProgress s = .next t) : CommandFrame s t := by
  rcases blockProgress_cases h with ⟨m, -, rfl⟩ | ⟨-, rfl⟩
  · exact capAttempt_frame m s
  · constructor <;> rfl

/-- `HASH` and `IHASH` leave the generator (R50, R51). -/
theorem exec_pure_keeps_generator {i : Instr} {s t : State} (h : exec i s = .next t) (hi : i.opcode.toNat < 0x20) :
    t.seed0 = s.seed0 ∧ t.seed1 = s.seed1 ∧ t.seeded = s.seeded := by
  rcases exec_cases h with ⟨_, _, rfl⟩ | ⟨hlo, -⟩ | ⟨hlo, -⟩ | ⟨m, rfl, -⟩
  · simp
  · omega
  · omega
  · simp [Instr.opcode] at hi

/-- A command that is no seed command leaves `seeded`, and a seed command sets it (R15, R66). -/
theorem exec_seeded {i : Instr} {s t : State} (h : exec i s = .next t) :
    t.seeded = s.seeded ∨ (t.seeded = true ∧ 0x20 ≤ i.opcode.toNat ∧ i.opcode.toNat < 0x30) := by
  rcases exec_cases h with ⟨_, _, rfl⟩ | ⟨hlo, hhi, _, _, rfl⟩ | ⟨-, -, _, _, rfl⟩ | ⟨_, -, -, rfl⟩
  · exact .inl (by simp)
  · exact .inr ⟨by simp, hlo, hhi⟩
  · exact .inl (by simp)
  · exact .inl (by simp)

theorem exec_draw_keeps_seeded {i : Instr} {s t : State} (h : exec i s = .next t) (hi : 0x30 ≤ i.opcode.toNat) :
    t.seeded = s.seeded := by
  rcases exec_seeded h with heq | ⟨-, -, hhi⟩
  · exact heq
  · omega

/-- Only a `CAP` can become pending (R72). -/
theorem exec_keeps_pendingCap {i : Instr} {s t : State} (h : exec i s = .next t) (hi : i.opcode ≠ 0x41) :
    t.pendingCap = s.pendingCap := by
  rcases exec_cases h with ⟨_, _, rfl⟩ | ⟨-, -, _, _, rfl⟩ | ⟨-, -, _, _, rfl⟩ | ⟨m, rfl, -⟩
  · simp
  · simp
  · simp
  · exact absurd rfl hi

/-- Settles O42: the frame that all commands share, then the three facts about kinds of commands. -/
theorem commandsLeaveTheRest : Obligations.CommandsLeaveTheRest := by
  intro i s t h
  obtain ⟨hszs, hrbs, hhost, htaken, hresets⟩ := exec_frame h
  exact ⟨hszs, hrbs, hhost, htaken, hresets, exec_pure_keeps_generator h, exec_draw_keeps_seeded h,
    exec_keeps_pendingCap h⟩

end Sys2Proof.Machine
end

section
/-! PROOFS. What a step that is not a reset leaves unchanged (R15, R17, R91), and the state after reset (R23). -/

namespace Sys2Proof.Machine

theorem resetNext_of_reset {s : State} {a b : Bool} {rest : List HostEvent} (h : s.host = .reset a b :: rest) :
    s.resetNext = true := by
  simp [State.resetNext, h]

/-- What a step that is not a reset does to `seeded`: nothing, or it accepts a seed command, which sets it. -/
theorem step_seeded {s t : State} (h : step s = .next t) (hr : s.resetNext = false) :
    t.seeded = s.seeded ∨ (t.seeded = true ∧ ∃ w i rest, s.host = .send w :: rest ∧ s.cmdReady = true ∧
      decode w = .ok i ∧ 0x20 ≤ i.opcode.toNat ∧ i.opcode.toNat < 0x30) := by
  rcases step_cases h with ⟨w, rest, hh, hrdy, ha⟩ | ⟨_, -, hb⟩ | ⟨_, _, -, -, rfl⟩ | ⟨_, _, _, hh, -⟩ |
    ⟨_, _, -, rfl⟩
  · rcases accept_cases ha with ⟨i, hd, hi⟩ | rfl
    · rcases exec_seeded hi with heq | ⟨hset, hlo, hhi⟩
      · exact .inl heq
      · exact .inr ⟨hset, w, i, rest, hh, hrdy, hd, hlo, hhi⟩
    · exact .inl (by simp)
  · rcases blockProgress_cases hb with ⟨_, -, rfl⟩ | ⟨-, rfl⟩ <;> exact .inl (by simp)
  · exact .inl (by simp)
  · simp [resetNext_of_reset hh] at hr
  · exact .inl (by simp)

/-- Settles O43, from what a step does to `seeded`. -/
theorem seededChangesOnlyAsSaid : Obligations.SeededChangesOnlyAsSaid := by
  intro s t h hr
  rcases step_seeded h hr with heq | ⟨hset, hword⟩
  · exact ⟨fun hs => heq.trans hs, fun hs ht => by simp [heq, hs] at ht⟩
  · exact ⟨fun _ => hset, fun _ _ => hword⟩

/-- Settles O44: a step is an accepted word, the block's progress, a taking or a move of the host's list, and none of these
writes a strap. -/
theorem strapsHoldOutOfReset : Obligations.StrapsHoldOutOfReset := by
  intro s t h hr
  rcases step_cases h with ⟨_, _, -, -, ha⟩ | ⟨_, -, hb⟩ | ⟨_, _, -, -, rfl⟩ | ⟨_, _, _, hh, -⟩ | ⟨_, _, -, rfl⟩
  · exact ⟨(accept_frame ha).cfgSzs, (accept_frame ha).cfgRbs⟩
  · exact ⟨(blockProgress_frame hb).cfgSzs, (blockProgress_frame hb).cfgRbs⟩
  · simp
  · simp [resetNext_of_reset hh] at hr
  · simp

/-- Settles O48: with nothing pending, offered or taken there is nothing to check. -/
theorem resetMeetsInvariant : Obligations.ResetMeetsInvariant := by
  simp [Obligations.ResetMeetsInvariant, State.inv, State.pendingOk, State.reset]

/-- Settles O49, field by field. -/
theorem resetStateIsIdle : Obligations.ResetStateIsIdle := by
  simp [Obligations.ResetStateIsIdle, State.rspValid, State.cmdReady, State.reset]

end Sys2Proof.Machine
end

section
/-! PROOFS. The seeds of a block that is not seeded make no difference (R23, U1). Two states the host cannot tell apart are
equal, or one is the other with different seeds and neither is seeded; so each operation is compared with itself after
`setSeeds`. -/

namespace Sys2Proof.Machine

/-! ## States and outcomes the host cannot tell apart -/

theorem SameToHost.refl (s : State) : SameToHost s s := by simp [SameToHost]

theorem sameToHost_setSeeds {s : State} (h : s.seeded = false) (p : Seeds) : SameToHost s (s.setSeeds p) := by
  simp [SameToHost, h]

/-- The two states differ at most in the seeds. -/
theorem SameToHost.eq_setSeeds {s t : State} (h : SameToHost s t) : t = s.setSeeds t.seeds := by
  obtain ⟨-, hseeded, hszs, hrbs, hpend, hresp, hhost, htaken, hresets⟩ := h
  rw [State.setSeeds, hseeded, hszs, hrbs, hpend, hresp, hhost, htaken, hresets]
  rfl

theorem SameToHost.eq_or_unseeded {s t : State} (h : SameToHost s t) :
    s = t ∨ (s.seeded = false ∧ ∃ p, t = s.setSeeds p) := by
  cases hs : s.seeded with
  | true =>
    have hseeds : t.seeds = s.seeds := Prod.ext (h.1 hs).1.symm (h.1 hs).2.symm
    exact .inl (by rw [h.eq_setSeeds, hseeds]; rfl)
  | false => exact .inr ⟨rfl, _, h.eq_setSeeds⟩

theorem SameOutcome.refl (o : Host.Outcome State Fault Refusal) : SameOutcome o o := by
  cases o with
  | next s => exact SameToHost.refl s
  | fault r => exact rfl
  | refused r => exact rfl

@[simp] theorem sameOutcome_next (s t : State) : SameOutcome (.next s) (.next t) ↔ SameToHost s t := Iff.rfl

/-- Two outcomes the host cannot tell apart are two such next states, or the same stop. -/
theorem SameOutcome.next_or_eq {o o' : Host.Outcome State Fault Refusal} (h : SameOutcome o o') :
    (∃ s t, o = .next s ∧ o' = .next t ∧ SameToHost s t) ∨ o = o' := by
  match o, o', h with
  | .next s, .next t, h => exact .inl ⟨s, t, rfl, rfl, h⟩
  | .fault _, .fault _, h => exact .inr (congrArg _ h)
  | .refused _, .refused _, h => exact .inr (congrArg _ h)

theorem State.setHost_setSeeds (s : State) (p : Seeds) (hs : List HostEvent) :
    (s.setSeeds p).setHost hs = (s.setHost hs).setSeeds p := (rfl)

/-- A generator that is constructed replaces the seeds there were (R66). -/
theorem State.construct_setSeeds (s : State) (p : Seeds) (a b : Word) :
    (s.setSeeds p).construct a b = s.construct a b := (rfl)

/-! ## Each operation on an unseeded block, with other seeds -/

section
variable {s : State} (p : Seeds) (hs : s.seeded = false)
include hs

/-- Answering leaves an unseeded block unseeded. -/
theorem sameToHost_respond_setSeeds (st : Status) (d : Word) :
    SameToHost (s.respond st d) ((s.setSeeds p).respond st d) :=
  sameToHost_setSeeds (s := s.respond st d) hs p

/-- A draw stops at its first check (R79). -/
theorem sameToHost_ifSeeded_setSeeds (u v : State) :
    SameToHost (s.ifSeeded u) ((s.setSeeds p).ifSeeded v) := by
  rw [State.ifSeeded_unseeded s u hs, State.ifSeeded_unseeded (s.setSeeds p) v hs]
  exact sameToHost_respond_setSeeds p hs _ _

theorem exec_setSeeds (i : Instr) : SameOutcome (exec i s) (exec i (s.setSeeds p)) := by
  cases i with
  | hash _ | ihash _ =>
    simp only [exec_hash_eq, exec_ihash_eq]
    exact sameToHost_respond_setSeeds p hs _ _
  | seedpair _ _ | seed _ | seed0 _ | seed1 _ => simp [State.construct_setSeeds, SameToHost.refl]
  | next | adv _ | ucap _ | cap _ =>
    simp only [exec_next_eq, exec_adv_eq, exec_ucap_eq, exec_cap_eq]
    exact sameToHost_ifSeeded_setSeeds p hs _ _

theorem accept_setSeeds (w : CmdWord) : SameOutcome (accept w s) (accept w (s.setSeeds p)) := by
  cases hd : decode w with
  | ok i =>
    rw [accept_legal w i _ hd, accept_legal w i _ hd]
    exact exec_setSeeds p hs i
  | error e =>
    rw [accept_illegal w e _ hd, accept_illegal w e _ hd]
    exact sameToHost_respond_setSeeds p hs _ _

theorem onStraps_setSeeds (a b : Bool) (rest : List HostEvent) :
    SameOutcome (onStraps a b rest s) (onStraps a b rest (s.setSeeds p)) := by
  by_cases h : a = s.cfgSzs ∧ b = s.cfgRbs
  · simpa [onStraps, h, State.setHost_setSeeds] using sameToHost_setSeeds (s := s.setHost rest) hs p
  · simp [onStraps, h, SameOutcome.refl]

variable (hp : s.pendingCap = none)
include hp

theorem blockProgress_setSeeds : SameOutcome (blockProgress s) (blockProgress (s.setSeeds p)) := by
  rw [blockProgress_idle s hp, blockProgress_idle (s.setSeeds p) hp]
  exact sameToHost_setSeeds hs p

theorem onSend_setSeeds (w : CmdWord) (rest : List HostEvent) :
    SameOutcome (onSend w rest s) (onSend w rest (s.setSeeds p)) := by
  cases hr : s.cmdReady with
  | true =>
    rw [onSend_ready w rest s hr, onSend_ready w rest (s.setSeeds p) hr, State.setHost_setSeeds]
    exact accept_setSeeds p (s := s.setHost rest) hs w
  | false =>
    rw [onSend_busy w rest s hr, onSend_busy w rest (s.setSeeds p) hr]
    exact blockProgress_setSeeds p hs hp

theorem onTake_setSeeds (rest : List HostEvent) :
    SameOutcome (onTake rest s) (onTake rest (s.setSeeds p)) := by
  cases hr : s.response with
  | some r =>
    rw [onTake_offered rest s r hr, onTake_offered rest (s.setSeeds p) r hr]
    exact sameToHost_setSeeds (s := (s.takeResponse r).setHost rest) hs p
  | none =>
    rw [onTake_nothing rest s hr hp, onTake_nothing rest (s.setSeeds p) hr hp]
    exact sameToHost_setSeeds (s := s.setHost rest) hs p

theorem step_setSeeds : SameOutcome (step s) (step (s.setSeeds p)) := by
  cases hh : s.host with
  | nil =>
    rw [step_of_host_nil s hh, step_of_host_nil (s.setSeeds p) hh]
    exact blockProgress_setSeeds p hs hp
  | cons e rest =>
    cases e with
    | send w =>
      rw [step_of_send s w rest hh, step_of_send (s.setSeeds p) w rest hh]
      exact onSend_setSeeds p hs hp w rest
    | take =>
      rw [step_of_take s rest hh, step_of_take (s.setSeeds p) rest hh]
      exact onTake_setSeeds p hs hp rest
    | reset a b =>
      rw [step_of_reset s a b rest hh, step_of_reset (s.setSeeds p) a b rest hh]
      exact SameToHost.refl _
    | straps a b =>
      rw [step_of_straps s a b rest hh, step_of_straps (s.setSeeds p) a b rest hh]
      exact onStraps_setSeeds p hs a b rest
    | idle =>
      rw [step_of_idle s rest hh, step_of_idle (s.setSeeds p) rest hh, State.setHost_setSeeds]
      exact blockProgress_setSeeds p (s := s.setHost rest) hs hp

end

/-! ## An unseeded block has no `CAP` pending -/

/-- The part of the invariant that the comparison needs: only a seeded block has a `CAP` pending (R79). -/
def State.PendingOnlyIfSeeded (s : State) : Prop := s.seeded = false → s.pendingCap = none

theorem State.pendingOnlyIfSeeded_of_inv {s : State} (h : s.inv = true) : s.PendingOnlyIfSeeded := by
  intro hs
  cases hp : s.pendingCap with
  | none => rfl
  | some m => simp [State.inv, State.pendingOk, hp, hs] at h

theorem State.pendingOnlyIfSeeded_of_seeded {s : State} (h : s.seeded = true) : s.PendingOnlyIfSeeded := by
  simp [State.PendingOnlyIfSeeded, h]

theorem exec_keeps_pendingOnlyIfSeeded {i : Instr} {s t : State} (h : exec i s = .next t)
    (hs : s.PendingOnlyIfSeeded) : t.PendingOnlyIfSeeded := by
  rcases exec_cases h with ⟨_, _, rfl⟩ | ⟨-, -, _, _, rfl⟩ | ⟨-, hd, _, _, rfl⟩ | ⟨_, -, hd, rfl⟩
  · exact hs
  · exact State.pendingOnlyIfSeeded_of_seeded (by simp)
  · exact State.pendingOnlyIfSeeded_of_seeded (by simp [hd])
  · exact State.pendingOnlyIfSeeded_of_seeded (by simp [hd])

theorem blockProgress_keeps_pendingOnlyIfSeeded {s t : State} (h : blockProgress s = .next t)
    (hs : s.PendingOnlyIfSeeded) : t.PendingOnlyIfSeeded := by
  rcases blockProgress_cases h with ⟨m, hp, rfl⟩ | ⟨-, rfl⟩
  · intro ht
    rw [capAttempt_seeded] at ht
    simp [hs ht] at hp
  · exact hs

theorem step_keeps_pendingOnlyIfSeeded {s t : State} (h : step s = .next t) (hs : s.PendingOnlyIfSeeded) :
    t.PendingOnlyIfSeeded := by
  rcases step_cases h with ⟨_, _, -, -, ha⟩ | ⟨_, -, hb⟩ | ⟨_, _, -, -, rfl⟩ | ⟨_, _, _, -, rfl⟩ | ⟨_, _, -, rfl⟩
  · rcases accept_cases ha with ⟨_, -, hi⟩ | rfl
    · exact exec_keeps_pendingOnlyIfSeeded hi hs
    · exact hs
  · exact blockProgress_keeps_pendingOnlyIfSeeded hb hs
  · exact hs
  · simp [State.PendingOnlyIfSeeded]
  · exact hs

/-! ## Steps and runs -/

theorem step_sameOutcome {s t : State} (hs : s.PendingOnlyIfSeeded) (h : SameToHost s t) :
    SameOutcome (step s) (step t) := by
  rcases h.eq_or_unseeded with rfl | ⟨hu, p, rfl⟩
  · exact SameOutcome.refl _
  · exact step_setSeeds p hu (hs hu)

/-- Settles O52: equal states step alike, and an unseeded block's step does not depend on its seeds. -/
theorem unseededSeedsMakeNoDifference : Obligations.UnseededSeedsMakeNoDifference := by
  intro s t hinv h
  exact step_sameOutcome (State.pendingOnlyIfSeeded_of_inv hinv) h

theorem run_sameOutcome (k : Nat) {s t : State} (hs : s.PendingOnlyIfSeeded) (h : SameToHost s t) :
    SameOutcome (run k s) (run k t) := by
  induction k generalizing s t with
  | zero => exact h
  | succ k ih =>
    rcases (step_sameOutcome hs h).next_or_eq with ⟨s', t', hs', ht', h'⟩ | heq
    · rw [run_succ_of_step k hs', run_succ_of_step k ht']
      exact ih (step_keeps_pendingOnlyIfSeeded hs' hs) h'
    · rw [run, run, heq]
      exact SameOutcome.refl _

/-- Settles O53, by induction on the number of steps: the two states after reset differ in unseeded seeds only. -/
theorem unspecifiedSeedsAreNeverSeen : Obligations.UnspecifiedSeedsAreNeverSeen := by
  intro a b c d szs rbs h k
  have hreset : State.reset.seeded = false := rfl
  refine run_sameOutcome k (fun _ => rfl) ?_
  simp [SameToHost, hreset]

end Sys2Proof.Machine
end

section
/-! PROOFS. Commands issued twice (R28), and what becomes of a word that a ready block accepts (R30, R92, R93). -/

namespace Sys2Proof.Machine

/-! ## An update made twice -/

/-- A response replaces the one before it (R22). -/
@[simp] theorem State.respond_respond (s : State) (st st' : Status) (d d' : Word) :
    (s.respond st d).respond st' d' = s.respond st' d' := (rfl)

/-- A generator and its response replace the generator and the response before them (R66, R22). -/
@[simp] theorem State.respond_construct_respond_construct (s : State) (a b a' b' : Word) (st st' : Status)
    (d d' : Word) :
    (((s.construct a b).respond st d).construct a' b').respond st' d' = (s.construct a' b').respond st' d' := (rfl)

/-- Settles O27: `HASH` and `IHASH` only answer, a seed command constructs a generator from its operand and a strap that no
command writes and answers, and each of these updates overwrites itself. -/
theorem pureAndSeedCommandsAreIdempotent : Obligations.PureAndSeedCommandsAreIdempotent := by
  intro i s t hi h
  cases i with
  | hash _ | ihash _ =>
    simp only [exec_hash_eq, exec_ihash_eq, Host.Outcome.next.injEq] at h
    subst h
    simp only [exec_hash_eq, exec_ihash_eq, State.respond_respond]
  | seedpair _ _ | seed _ | seed0 _ | seed1 _ =>
    simp only [exec_seedpair_eq, exec_seed_eq, exec_seed0_eq, exec_seed1_eq, Host.Outcome.next.injEq] at h
    subst h
    simp only [exec_seedpair_eq, exec_seed_eq, exec_seed0_eq, exec_seed1_eq,
      State.respond_construct_respond_construct, State.respond_cfgSzs, State.construct_cfgSzs]
  | next | adv _ | ucap _ | cap _ => simp [Instr.opcode] at hi

/-! ## A word accepted by a ready block -/

/-- The block is ready when no command is in progress and no response waits (R93). -/
theorem State.cmdReady_iff (s : State) : s.cmdReady = true ↔ s.pendingCap = none ∧ s.response = none := by
  simp [State.cmdReady]

/-- A response is offered and no `CAP` is pending: the command before has completed (R72, R92). -/
def State.Answered (s : State) : Prop := s.pendingCap = none ∧ ∃ r, s.response = some r

theorem State.answered_respond {s : State} (hp : s.pendingCap = none) (st : Status) (d : Word) :
    (s.respond st d).Answered := ⟨hp, _, rfl⟩

/-- An attempt of a `CAP` with no response before it completes the command or leaves it pending and unanswered (R72). -/
theorem capAttempt_answered_or_pending (m : Word) {s : State} (hr : s.response = none) :
    (capAttempt m s).Answered ∨ ((capAttempt m s).pendingCap = some m ∧ (capAttempt m s).response = none) := by
  rcases capAttempt_cases m s with ⟨-, -, hu⟩ | ⟨-, hu⟩
  · exact .inr (by simp [hu, hr])
  · exact .inl (hu ▸ State.answered_respond (State.setPendingCap_pendingCap _ _) _ _)

/-- A command that a ready block executes is answered, or is a `CAP` left pending and unanswered. -/
theorem exec_answered_or_pending {i : Instr} {s t : State} (h : exec i s = .next t) (hs : s.cmdReady = true) :
    t.Answered ∨ ∃ m, i = .cap m ∧ t.pendingCap = some m ∧ t.response = none := by
  obtain ⟨hp, hr⟩ := s.cmdReady_iff.mp hs
  rcases exec_cases h with ⟨_, _, rfl⟩ | ⟨-, -, _, _, rfl⟩ | ⟨-, -, _, _, rfl⟩ | ⟨m, rfl, -, rfl⟩
  · exact .inl (State.answered_respond hp _ _)
  · exact .inl (State.answered_respond hp _ _)
  · exact .inl (State.answered_respond hp _ _)
  · exact (capAttempt_answered_or_pending m hr).imp_right fun hpend => ⟨m, rfl, hpend⟩

/-- A word that a ready block accepts is answered, or is a `CAP` left pending and unanswered. -/
theorem accept_answered_or_pending {w : CmdWord} {s t : State} (h : accept w s = .next t) (hs : s.cmdReady = true) :
    t.Answered ∨ ∃ m, decode w = .ok (.cap m) ∧ t.pendingCap = some m ∧ t.response = none := by
  rcases accept_cases h with ⟨i, hd, hi⟩ | rfl
  · exact (exec_answered_or_pending hi hs).imp_right fun ⟨m, hm, hpend⟩ => ⟨m, hm ▸ hd, hpend⟩
  · exact .inl (State.answered_respond (s.cmdReady_iff.mp hs).1 _ _)

/-- Settles O58: every word is accepted with a next state, and that state is answered or has the `CAP` pending. -/
theorem acceptedWordIsAnsweredOrPending : Obligations.AcceptedWordIsAnsweredOrPending := by
  intro w s hs
  obtain ⟨t, ht⟩ := accept_next w s
  exact ⟨t, ht, accept_answered_or_pending ht hs⟩

/-- A block that offers a response has it taken in one step by a host that waits to take (R92). -/
theorem step_of_take_offered {s : State} {r : Response} {rest : List HostEvent} (hh : s.host = .take :: rest)
    (hr : s.response = some r) : step s = .next ((s.takeResponse r).setHost rest) := by
  rw [step_of_take s rest hh, onTake_offered rest s r hr]

/-- A ready block accepts in one step the word that the host sends (R92). -/
theorem step_of_send_ready {s : State} {w : CmdWord} {rest : List HostEvent} (hh : s.host = .send w :: rest)
    (hs : s.cmdReady = true) : step s = accept w (s.setHost rest) := by
  rw [step_of_send s w rest hh, onSend_ready w rest s hs]

/-- Settles O59: the first step accepts the word, which no `CAP` pending means is answered; accepting leaves the host about
to take and the responses taken as they were, so the second step takes that response. -/
theorem commandAndResponseRoundTrip : Obligations.CommandAndResponseRoundTrip := by
  intro w rest s u hh hs hacc hp
  have hframe : CommandFrame (s.setHost (.take :: rest)) u := accept_frame hacc
  have hanswered : u.Answered := by
    rcases accept_answered_or_pending hacc hs with ha | ⟨m, -, hpend, -⟩
    · exact ha
    · simp [hp] at hpend
  obtain ⟨-, r, hr⟩ := hanswered
  have hsend : step s = .next u := (step_of_send_ready hh hs).trans hacc
  have htake : step u = .next ((u.takeResponse r).setHost rest) := step_of_take_offered hframe.host hr
  have htaken : u.taken = s.taken := hframe.taken
  refine ⟨r, hr, ?_⟩
  rw [run_succ_of_step 1 hsend, run_succ_of_step 0 htake, run_zero, ← htaken]
  rfl

end Sys2Proof.Machine
end

section
/-! PROOFS. The decoder and the encoder undo one another (R40): a word decodes to a command exactly when its three fields are
the command's opcode and operands, and so exactly when it is the command's encoding. -/

namespace Sys2Proof

/-! ## What the decoder of each format answers -/

/-- A decoder that checks its reserved fields answers a command only when the check holds. -/
theorem ite_ok_error_eq_ok_iff {P : Prop} [Decidable P] {c i : Instr} {e : IllegalReason} :
    (if P then .ok c else .error e : Except IllegalReason Instr) = .ok i ↔ P ∧ c = i := by
  by_cases h : P <;> simp [h]

@[simp] theorem decodeA_eq_ok_iff {mk : Word → Instr} {a b : Word} {i : Instr} :
    decodeA mk a b = .ok i ↔ b = 0 ∧ mk a = i := ite_ok_error_eq_ok_iff

@[simp] theorem decodeZ_eq_ok_iff {c i : Instr} {a b : Word} :
    decodeZ c a b = .ok i ↔ (a = 0 ∧ b = 0) ∧ c = i := ite_ok_error_eq_ok_iff

@[simp] theorem decodeN_eq_ok_iff {mk : Count → Instr} {a b : Word} {i : Instr} :
    decodeN mk a b = .ok i ↔ (reservedHigh a = 0 ∧ b = 0) ∧ mk (countOf a) = i := ite_ok_error_eq_ok_iff

/-! ## The fields of a command -/

/-- The three fields hold the opcode and the operands of `i` (R36). -/
def Instr.HasFields (i : Instr) (op : BitVec 8) (a b : Word) : Prop :=
  i.opcode = op ∧ i.aOperand = a ∧ i.bOperand = b

/-- A row of format A answers a command with its fields: the reserved `B` is zero, as it is in the command. -/
theorem hasFields_of_decodeA {mk : Word → Instr} {op : BitVec 8} {a b : Word} {i : Instr}
    (hmk : ∀ x, (mk x).HasFields op x 0) (h : decodeA mk a b = .ok i) : i.HasFields op a b := by
  obtain ⟨rfl, rfl⟩ := decodeA_eq_ok_iff.mp h
  exact hmk a

/-- Decoding the fields of a command gives the command back (R36, R40). -/
theorem decodeFields_operands (i : Instr) : decodeFields i.opcode i.aOperand i.bOperand = .ok i := by
  cases i <;> simp [decodeFields, Instr.opcode, Instr.aOperand, Instr.bOperand]

/-- The rows of R40, one by one: each answers only the command that has the fields. -/
theorem hasFields_of_decodeFields {op : BitVec 8} {a b : Word} {i : Instr} (h : decodeFields op a b = .ok i) :
    i.HasFields op a b := by
  unfold decodeFields at h
  split_ifs at h with h10 h11 h20 h21 h22 h23 h30 h31 h40 h41
  · exact hasFields_of_decodeA (mk := .hash) (fun _ => ⟨h10.symm, rfl, rfl⟩) h
  · exact hasFields_of_decodeA (mk := .ihash) (fun _ => ⟨h11.symm, rfl, rfl⟩) h
  · cases h
    exact ⟨h20.symm, rfl, rfl⟩
  · exact hasFields_of_decodeA (mk := .seed) (fun _ => ⟨h21.symm, rfl, rfl⟩) h
  · exact hasFields_of_decodeA (mk := .seed0) (fun _ => ⟨h22.symm, rfl, rfl⟩) h
  · exact hasFields_of_decodeA (mk := .seed1) (fun _ => ⟨h23.symm, rfl, rfl⟩) h
  · obtain ⟨⟨rfl, rfl⟩, rfl⟩ := decodeZ_eq_ok_iff.mp h
    exact ⟨h30.symm, rfl, rfl⟩
  · obtain ⟨⟨ha, rfl⟩, rfl⟩ := decodeN_eq_ok_iff.mp h
    exact ⟨h31.symm, setWidth_countOf a ha, rfl⟩
  · exact hasFields_of_decodeA (mk := .ucap) (fun _ => ⟨h40.symm, rfl, rfl⟩) h
  · exact hasFields_of_decodeA (mk := .cap) (fun _ => ⟨h41.symm, rfl, rfl⟩) h

/-! ## Words -/

/-- A word is its fields packed, so it is the encoding of the command that has its fields. -/
theorem encode_of_hasFields {w : CmdWord} {i : Instr} (h : i.HasFields (opField w) (aField w) (bField w)) :
    encode i = w := by
  obtain ⟨hop, ha, hb⟩ := h
  rw [encode, hop, ha, hb, packWord_fields]

theorem decode_encode (i : Instr) : decode (encode i) = .ok i := by
  rw [encode, decode_packWord, decodeFields_operands]

theorem encode_of_decode {w : CmdWord} {i : Instr} (h : decode w = .ok i) : encode i = w :=
  encode_of_hasFields (hasFields_of_decodeFields h)

/-- Settles O1: the decoder reads the packed fields of the command, and each command is the one of its fields. -/
theorem decodeOfEncode : Obligations.DecodeOfEncode := decode_encode

/-- Settles O2: the command a word decodes to has the word's fields, and a word is its fields packed. -/
theorem encodeOfDecode : Obligations.EncodeOfDecode := fun _ _ => encode_of_decode

/-- A word decodes to a command when it is written as the command's encoding. -/
theorem decode_of_eq_encode {w : CmdWord} {i : Instr} (h : w = encode i) : decode w = .ok i :=
  h ▸ decode_encode i

/-- Settles O5: each of the words is the encoding of its command. -/
theorem writtenOutWordsDecode : Obligations.WrittenOutWordsDecode := by
  refine ⟨?_, ?_, ?_, ?_, ?_, ?_, ?_⟩ <;> exact decode_of_eq_encode (by decide)

end Sys2Proof
end

section
/-! PROOFS. The match-and-mask table (R36, R37) read by fields: its rows accept the encodings of the commands and no other
word, so it agrees with the decoder (R40). -/

namespace Sys2Proof

/-! ## Masks and match words by fields -/

@[simp] theorem opField_and (v w : CmdWord) : opField (v &&& w) = opField v &&& opField w :=
  BitVec.extractLsb'_and

@[simp] theorem aField_and (v w : CmdWord) : aField (v &&& w) = aField v &&& aField w :=
  BitVec.extractLsb'_and

@[simp] theorem bField_and (v w : CmdWord) : bField (v &&& w) = bField v &&& bField w :=
  BitVec.extractLsb'_and

/-- A word is a packed word when its fields are the fields packed. -/
theorem eq_packWord_iff {w : CmdWord} {op : BitVec 8} {a b : Word} :
    w = packWord op a b ↔ opField w = op ∧ aField w = a ∧ bField w = b := by
  constructor
  · rintro rfl
    simp
  · rintro ⟨rfl, rfl, rfl⟩
    rw [packWord_fields]

theorem OpRow.matchWord_eq (r : OpRow) : r.matchWord = packWord r.opcode 0 0 := by
  apply BitVec.eq_of_toNat_eq
  unfold packWord
  rw [BitVec.toNat_append, BitVec.toNat_append]
  simp [OpRow.matchWord, Nat.shiftLeft_eq]
  omega

/-- The part of a mask that covers the field `A`. -/
def Format.aMask : Format → Word
  | .z => BitVec.allOnes 64
  | .a => 0
  | .ab => 0
  | .n => BitVec.allOnes 32 ++ 0#32

/-- The part of a mask that covers the field `B`. -/
def Format.bMask : Format → Word
  | .z => BitVec.allOnes 64
  | .a => BitVec.allOnes 64
  | .ab => 0
  | .n => BitVec.allOnes 64

/-- The mask covers the whole opcode. -/
theorem Format.opField_mask (f : Format) : opField f.mask = BitVec.allOnes 8 := by
  cases f <;> decide

theorem Format.aField_mask (f : Format) : aField f.mask = f.aMask := by
  cases f <;> decide

theorem Format.bField_mask (f : Format) : bField f.mask = f.bMask := by
  cases f <;> decide

/-- The mask of format N covers the upper half of `A`. -/
theorem and_aMask_n_eq_zero_iff (x : Word) : x &&& Format.n.aMask = 0 ↔ reservedHigh x = 0 := by
  have high : reservedHigh (x &&& Format.n.aMask) = reservedHigh x := by
    rw [reservedHigh, Format.aMask, BitVec.extractLsb'_and, BitVec.extractLsb'_append_eq_left, BitVec.and_allOnes,
      reservedHigh]
  have low : countOf (x &&& Format.n.aMask) = 0 := by
    rw [countOf, Format.aMask, BitVec.extractLsb'_and, BitVec.extractLsb'_append_eq_right]
    exact BitVec.and_zero
  constructor
  · intro h
    rw [← high, h]
    rfl
  · intro h
    rw [← setWidth_countOf _ (high.trans h), low]
    rfl

/-- The reserved fields of the format are zero (R36). -/
def Format.ReservedZero : Format → Word → Word → Prop
  | .z, x, y => x = 0 ∧ y = 0
  | .a, _, y => y = 0
  | .ab, _, _ => True
  | .n, x, y => reservedHigh x = 0 ∧ y = 0

/-- The mask covers exactly the reserved fields. -/
theorem Format.and_mask_eq_zero_iff (f : Format) (x y : Word) :
    x &&& f.aMask = 0 ∧ y &&& f.bMask = 0 ↔ f.ReservedZero x y := by
  cases f with
  | z | a | ab => simp [Format.aMask, Format.bMask, Format.ReservedZero, -BitVec.reduceAllOnes]
  | n =>
    rw [and_aMask_n_eq_zero_iff]
    simp [Format.bMask, Format.ReservedZero, -BitVec.reduceAllOnes]

/-- A row accepts the words with its opcode whose reserved fields are zero. -/
theorem OpRow.accepts_iff (r : OpRow) (w : CmdWord) :
    r.accepts w = true ↔ opField w = r.opcode ∧ r.format.ReservedZero (aField w) (bField w) := by
  rw [OpRow.accepts, beq_iff_eq, r.matchWord_eq, eq_packWord_iff, opField_and, aField_and, bField_and,
    r.format.opField_mask, r.format.aField_mask, r.format.bField_mask,
    BitVec.and_allOnes, r.format.and_mask_eq_zero_iff]

theorem CmdWord.wellFormed_iff (w : CmdWord) : w.wellFormed = true ↔ ∃ r ∈ opTable, r.accepts w = true :=
  List.any_eq_true

/-! ## The table and the commands -/

/-- Every command has a row (R37). -/
theorem Instr.exists_row (i : Instr) : ∃ r ∈ opTable, r.opcode = i.opcode ∧ r.format = i.format := by
  cases i <;> simp [opTable, Instr.opcode, Instr.format]

/-- No two rows share an opcode (R37, R38). -/
theorem opcodes_nodup : (opTable.map OpRow.opcode).Nodup := by
  decide

/-- The opcode of a row tells the command's format. -/
theorem format_of_opcode {r : OpRow} {i : Instr} (hr : r ∈ opTable) (h : r.opcode = i.opcode) :
    r.format = i.format := by
  obtain ⟨r', hr', hop, hf⟩ := i.exists_row
  have hrows : r = r' := List.inj_on_of_nodup_map opcodes_nodup hr hr' (h.trans hop.symm)
  rw [hrows, hf]

/-- A command leaves the reserved fields of its format zero (R36). -/
theorem Instr.reservedZero_operands (i : Instr) : i.format.ReservedZero i.aOperand i.bOperand := by
  cases i <;> simp [Format.ReservedZero, Instr.format, Instr.aOperand, Instr.bOperand]

/-- Whatever the used fields hold, a row with zero reserved fields is some command (R38). -/
theorem exists_hasFields_of_row {r : OpRow} {a b : Word} (hr : r ∈ opTable) (h : r.format.ReservedZero a b) :
    ∃ i : Instr, i.HasFields r.opcode a b := by
  simp only [opTable, List.mem_cons, List.not_mem_nil, or_false] at hr
  rcases hr with rfl | rfl | rfl | rfl | rfl | rfl | rfl | rfl | rfl | rfl
  · exact ⟨.hash a, rfl, rfl, h.symm⟩
  · exact ⟨.ihash a, rfl, rfl, h.symm⟩
  · exact ⟨.seedpair a b, rfl, rfl, rfl⟩
  · exact ⟨.seed a, rfl, rfl, h.symm⟩
  · exact ⟨.seed0 a, rfl, rfl, h.symm⟩
  · exact ⟨.seed1 a, rfl, rfl, h.symm⟩
  · exact ⟨.next, rfl, h.1.symm, h.2.symm⟩
  · exact ⟨.adv (countOf a), rfl, setWidth_countOf a h.1, h.2.symm⟩
  · exact ⟨.ucap a, rfl, rfl, h.symm⟩
  · exact ⟨.cap a, rfl, rfl, h.symm⟩

theorem wellFormed_encode (i : Instr) : (encode i).wellFormed = true := by
  obtain ⟨r, hr, hop, hf⟩ := i.exists_row
  have haccepts : r.accepts (encode i) = true := by
    rw [r.accepts_iff, hop, hf, encode]
    simpa using i.reservedZero_operands
  exact (CmdWord.wellFormed_iff _).mpr ⟨r, hr, haccepts⟩

/-- A legal word is the encoding of a command. -/
theorem exists_encode_of_wellFormed {w : CmdWord} (h : w.wellFormed = true) : ∃ i, encode i = w := by
  obtain ⟨r, hr, hw⟩ := (CmdWord.wellFormed_iff w).mp h
  obtain ⟨hop, hzero⟩ := (r.accepts_iff w).mp hw
  obtain ⟨i, hi⟩ := exists_hasFields_of_row hr hzero
  exact ⟨i, encode_of_hasFields (hop ▸ hi)⟩

/-- Settles O3: on both sides the words are the encodings of the commands. -/
theorem decodeAgreesWithMaskTable : Obligations.DecodeAgreesWithMaskTable := by
  intro w
  constructor
  · rintro ⟨i, hi⟩
    rw [← encode_of_decode hi]
    exact wellFormed_encode i
  · intro h
    obtain ⟨i, rfl⟩ := exists_encode_of_wellFormed h
    exact ⟨i, decode_encode i⟩

/-- Settles O4: the word has the opcode of the row and of the command, and the opcode tells the format. -/
theorem acceptingRowIsTheCommandsRow : Obligations.AcceptingRowIsTheCommandsRow := by
  intro w i r hr haccepts hi
  have hop : r.opcode = i.opcode := by
    rw [← ((r.accepts_iff w).mp haccepts).1, (hasFields_of_decodeFields hi).1]
  exact ⟨hop, format_of_opcode hr hop⟩

end Sys2Proof
end

section
/-! PROOFS. The response word and the response port (R22, R41, R92). -/

namespace Sys2Proof.Machine

/-! ## The response word (R41) -/

/-- `STATUS` is the upper four bits of the word. -/
@[simp] theorem Response.status_toWord (r : Response) : r.toWord.extractLsb' 64 4 = r.status.code :=
  BitVec.extractLsb'_append_eq_left

/-- `DATA` is the lower 64 bits of the word. -/
@[simp] theorem Response.data_toWord (r : Response) : r.toWord.extractLsb' 0 64 = r.data :=
  BitVec.extractLsb'_append_eq_right

/-- The codes `0x4` to `0xf` are never produced (R41). -/
theorem Status.code_lt (st : Status) : st.code.toNat < 4 := by
  cases st <;> decide

@[simp] theorem Status.ofCode_code (st : Status) : Status.ofCode st.code = some st := by
  cases st <;> rfl

@[simp] theorem Response.ofWord_toWord (r : Response) : Response.ofWord r.toWord = some r := by
  simp [Response.ofWord]

/-! ## The response port (R22, R92) -/

theorem State.rspValid_of_response {s : State} {r : Response} (h : s.response = some r) : s.rspValid = true := by
  simp [State.rspValid, h]

theorem State.rspWord_of_response {s : State} {r : Response} (h : s.response = some r) :
    s.rspWord = some r.toWord := by
  simp [State.rspWord, h]

/-- There is a word exactly while a response is offered (log 11). -/
theorem State.rspValid_iff (s : State) : s.rspValid = true ↔ s.rspWord ≠ none := by
  simp [State.rspValid, State.rspWord, Option.isSome_iff_ne_none]

/-- A host reads from the port the response that is offered, or nothing. -/
theorem State.rspWord_bind_ofWord (s : State) : s.rspWord.bind Response.ofWord = s.response := by
  cases h : s.response with
  | none => simp [State.rspWord, h]
  | some r => simp [State.rspWord_of_response h]

/-- Settles O7: the fields of the word, and what the port shows of the response that is offered. -/
theorem responseWordHoldsStatusAndData : Obligations.ResponseWordHoldsStatusAndData :=
  ⟨fun r => ⟨r.status_toWord, r.data_toWord, r.status.code_lt, r.ofWord_toWord⟩,
    fun _ _ h => ⟨State.rspValid_of_response h, State.rspWord_of_response h⟩,
    fun s => ⟨s.rspValid_iff, s.rspWord_bind_ofWord⟩⟩

end Sys2Proof.Machine
end

section
/-! PROOFS. The assembler (R43): it emits encodings only, and what a line stands for is told by its mnemonic in capitals and
by what follows it, so a pseudo-instruction is its expansion (R44). -/

namespace Sys2Proof.Machine

/-! ## The word of a line (R43) -/

/-- The word of a line is the encoding of the command the line stands for. -/
theorem exists_encode_of_assemble {line : String} {w : CmdWord} (h : assemble line = .ok w) : ∃ i, encode i = w := by
  rw [assemble] at h
  cases hc : assembleChars line.toList with
  | error why => simp [hc, Except.map] at h
  | ok i => exact ⟨i, by simpa [hc, Except.map] using h⟩

/-- Settles O8: an encoding has its command's opcode and zero in its reserved fields, so the command's row accepts it. -/
theorem assemblerEmitsLegalWords : Obligations.AssemblerEmitsLegalWords := by
  intro line w h
  obtain ⟨i, rfl⟩ := exists_encode_of_assemble h
  exact wellFormed_encode i

/-! ## White space and comments -/

theorem trim_eq_rdropWhile (cs : List Char) : trim cs = (cs.dropWhile isBlank).rdropWhile isBlank := (rfl)

/-- Trimming leaves what neither begins nor ends with white space. -/
theorem trim_eq_self {cs : List Char} (h : cs ≠ []) (hhead : isBlank (cs.head h) = false)
    (hlast : isBlank (cs.getLast h) = false) : trim cs = cs := by
  have hfront : cs.dropWhile isBlank = cs := by
    rw [← List.cons_head_tail h, List.dropWhile_cons_of_neg (by simp [hhead])]
  rw [trim_eq_rdropWhile, hfront, List.rdropWhile_eq_self_iff]
  simpa [h] using hlast

/-- Nothing is left of white space, and of nothing else. -/
theorem trim_eq_nil_iff (cs : List Char) : trim cs = [] ↔ ∀ c ∈ cs, isBlank c = true := by
  rw [trim_eq_rdropWhile, List.rdropWhile_eq_nil_iff, ← List.dropWhile_eq_nil_iff, List.dropWhile_idempotent,
    List.dropWhile_eq_nil_iff]

/-- What is left does not end with white space. -/
theorem isBlank_getLast_trim {cs : List Char} (h : trim cs ≠ []) : isBlank ((trim cs).getLast h) = false :=
  Bool.eq_false_of_not_eq_true (List.rdropWhile_last_not isBlank _ h)

theorem stripComment_eq_self_iff (cs : List Char) : stripComment cs = cs ↔ ∀ c ∈ cs, c ≠ ';' := by
  simp [stripComment, List.takeWhile_eq_self_iff]

/-- The body of a line holds no semicolon: the comment is gone. -/
theorem ne_semicolon_of_mem_lineBody {line : List Char} {c : Char} (h : c ∈ lineBody line) : c ≠ ';' := by
  have hmem : c ∈ stripComment line :=
    (List.dropWhile_suffix _).mem ((List.rdropWhile_prefix _ _).mem h)
  simpa using List.mem_takeWhile_imp hmem

/-! ## The mnemonic of a line and what follows it -/

theorem mnemonicOf_append_operandText (line : List Char) : mnemonicOf line ++ operandText line = lineBody line :=
  List.takeWhile_append_dropWhile

/-- What follows the mnemonic, if anything does, does not end with white space. -/
theorem isBlank_getLast_operandText {line : List Char} (h : operandText line ≠ []) :
    isBlank ((operandText line).getLast h) = false := by
  have hbody : lineBody line ≠ [] := by
    rw [← mnemonicOf_append_operandText]
    simp [h]
  have hlast : (operandText line).getLast h = (lineBody line).getLast hbody := by
    simp only [← mnemonicOf_append_operandText line, List.getLast_append_of_ne_nil _ h]
  rw [hlast]
  exact isBlank_getLast_trim hbody

theorem ne_semicolon_of_mem_operandText {line : List Char} {c : Char} (h : c ∈ operandText line) : c ≠ ';' :=
  ne_semicolon_of_mem_lineBody ((List.dropWhile_suffix _).mem h)

/-- Characters that can be a mnemonic: no white space, and no comment begins among them. -/
def MnemonicLike (m : List Char) : Prop := m ≠ [] ∧ ∀ c ∈ m, isBlank c = false ∧ c ≠ ';'

theorem isBlank_getLast_append_operandText {m : List Char} (hm : MnemonicLike m) (line : List Char)
    (h : m ++ operandText line ≠ []) : isBlank ((m ++ operandText line).getLast h) = false := by
  by_cases ho : operandText line = []
  · simp only [ho, List.append_nil]
    exact (hm.2 _ (List.getLast_mem hm.1)).1
  · rw [List.getLast_append_of_ne_nil h ho]
    exact isBlank_getLast_operandText ho

/-- A mnemonic with what follows another line's mnemonic is all of a line's body. -/
theorem lineBody_append_operandText {m : List Char} (hm : MnemonicLike m) (line : List Char) :
    lineBody (m ++ operandText line) = m ++ operandText line := by
  have hcomment : stripComment (m ++ operandText line) = m ++ operandText line := by
    rw [stripComment_eq_self_iff]
    intro c hc
    rcases List.mem_append.mp hc with hc | hc
    · exact (hm.2 c hc).2
    · exact ne_semicolon_of_mem_operandText hc
  have hne : m ++ operandText line ≠ [] := List.append_ne_nil_of_left_ne_nil hm.1 _
  have hhead : isBlank ((m ++ operandText line).head hne) = false := by
    rw [List.head_append_of_ne_nil hm.1]
    exact (hm.2 _ (List.head_mem hm.1)).1
  rw [lineBody, hcomment, trim_eq_self hne hhead (isBlank_getLast_append_operandText hm line hne)]

/-- The line of a mnemonic and what follows another line's mnemonic has that mnemonic. -/
theorem mnemonicOf_append {m : List Char} (hm : MnemonicLike m) (line : List Char) :
    mnemonicOf (m ++ operandText line) = m := by
  have hchars : ∀ c ∈ m, (!isBlank c) = true := fun c hc => by simp [(hm.2 c hc).1]
  have hnone : (operandText line).takeWhile (fun c => !isBlank c) = [] := by
    rw [List.takeWhile_eq_nil_iff]
    intro h
    exact List.dropWhile_get_zero_not _ _ h
  rw [mnemonicOf, lineBody_append_operandText hm, List.takeWhile_append_of_pos hchars, hnone, List.append_nil]

/-- The same follows its mnemonic. -/
theorem operandText_append {m : List Char} (hm : MnemonicLike m) (line : List Char) :
    operandText (m ++ operandText line) = operandText line := by
  have hsplit := mnemonicOf_append_operandText (m ++ operandText line)
  rw [mnemonicOf_append hm, lineBody_append_operandText hm] at hsplit
  exact List.append_cancel_left hsplit

/-! ## Lines with operands and lines without -/

/-- A line on which something follows the mnemonic has an operand, or what follows is no list of literals. -/
theorem operandsOf_operandText_ne_nil {line : List Char} (h : operandText line ≠ []) :
    operandsOf (operandText line) ≠ some [] := by
  have htrim : trim (operandText line) ≠ [] := by
    rw [Ne, trim_eq_nil_iff]
    intro hall
    simpa [hall _ (List.getLast_mem h)] using isBlank_getLast_operandText h
  rw [operandsOf, if_neg (by simpa using htrim)]
  intro hnil
  have hlen := literals_length hnil
  exact splitCommas_ne_nil _ (List.length_eq_zero_iff.mp hlen.symm)

theorem form0_error {i : Instr} {vs : List Int} (h : vs ≠ []) : form0 i vs = .error .operandCount := by
  cases vs with
  | nil => exact absurd rfl h
  | cons v vs => rfl

theorem assembleChars_form0_nil {line : List Char} {i : Instr} (hf : formOf (mnemonicOf line) = some (form0 i))
    (ho : operandText line = []) : assembleChars line = .ok i := by
  rw [assembleChars_of_form hf (vs := []) (by rw [ho]; rfl)]
  rfl

theorem assembleChars_form0_error {line : List Char} {i : Instr} (hf : formOf (mnemonicOf line) = some (form0 i))
    (ho : operandText line ≠ []) : ∃ why, assembleChars line = .error why := by
  cases hv : operandsOf (operandText line) with
  | none => exact ⟨.notALiteral, by simp only [assembleChars, hf, hv]⟩
  | some vs =>
    have hvs : vs ≠ [] := by
      rintro rfl
      exact operandsOf_operandText_ne_nil ho hv
    exact ⟨.operandCount, by rw [assembleChars_of_form hf hv, form0_error hvs]⟩

/-! ## Mnemonics in capitals (R43) -/

/-- A capital letter is its own capital. -/
theorem upper_upper (c : Char) : upper (upper c) = upper c := by
  by_cases h : 97 ≤ c.toNat ∧ c.toNat ≤ 122
  · have hnat : (Char.ofNat (c.toNat - 32)).toNat = c.toNat - 32 :=
      (Char.toNat_ofNat _).trans (if_pos (.inl (by omega)))
    rw [upper, upper, if_pos h, if_neg (by omega)]
  · simp only [upper, if_neg h]

/-- A mnemonic has the form of its capitals. -/
theorem formOf_of_map_upper {m p : List Char} (h : m.map upper = p) : formOf m = formOf p := by
  refine formOf_congr ?_
  rw [← h, List.map_map]
  exact List.map_congr_left fun c _ => (upper_upper c).symm

/-! ## Pseudo-instructions (R44) -/

/-- The pseudo-instructions whose expansion has the same operands, each with its expansion (R44). -/
def pseudoInstructions : List (String × String) :=
  [("NEW", "SEED"), ("FROMPAIR", "SEEDPAIR"), ("NEXTU64", "NEXT"), ("ADVANCE", "ADV"),
    ("NEXTCAPPEDU64", "CAP"), ("UNCHECKEDNEXTCAPPEDU64", "UCAP")]

/-- Each expansion can stand as a mnemonic, and is written in capitals. -/
theorem expansion_written {x : String × String} (h : x ∈ pseudoInstructions) :
    MnemonicLike x.2.toList ∧ x.2.toList.map upper = x.2.toList := by
  simp only [pseudoInstructions, List.mem_cons, List.not_mem_nil, or_false] at h
  rcases h with rfl | rfl | rfl | rfl | rfl | rfl <;> simp [MnemonicLike, isBlank, upper]

/-- The table gives a pseudo-instruction the form of its expansion. -/
theorem formOf_pseudoInstruction {p e : String} (h : (p, e) ∈ pseudoInstructions) :
    formOf p.toList = formOf e.toList := by
  simp only [pseudoInstructions, List.mem_cons, List.not_mem_nil, or_false, Prod.mk.injEq] at h
  rcases h with ⟨rfl, rfl⟩ | ⟨rfl, rfl⟩ | ⟨rfl, rfl⟩ | ⟨rfl, rfl⟩ | ⟨rfl, rfl⟩ | ⟨rfl, rfl⟩ <;> rfl

/-- A line of a pseudo-instruction stands for what every line of its expansion with the same operands stands for. -/
theorem assembleChars_pseudoInstruction {p e : String} (h : (p, e) ∈ pseudoInstructions) {line line' : List Char}
    (hp : (mnemonicOf line).map upper = p.toList) (he : (mnemonicOf line').map upper = e.toList)
    (ho : operandText line' = operandText line) : assembleChars line = assembleChars line' := by
  refine assembleChars_congr ?_ ho.symm
  rw [formOf_of_map_upper hp, formOf_of_map_upper he, formOf_pseudoInstruction h]

theorem formOf_advanceOne {m : List Char} (h : m.map upper = "ADVANCEONE".toList) :
    formOf m = some (form0 (.adv 1)) := by
  rw [formOf_of_map_upper h]
  rfl

theorem assembleChars_adv_one : assembleChars "ADV 1".toList = .ok (.adv 1) := by
  decide

/-- Settles O9: a pseudo-instruction has its expansion's form, and the expansion followed by the line's operands is a line of
the expansion with those operands; `ADVANCEONE` has a form without operands; the calls of R11 are read off. -/
theorem pseudoInstructionsExpand : Obligations.PseudoInstructionsExpand := by
  refine ⟨?_, ?_, ?_⟩
  · intro p e h line hp
    obtain ⟨hmnem, hcap⟩ := expansion_written h
    refine ⟨assembleChars_pseudoInstruction h hp ?_ (operandText_append hmnem line), fun line' he ho =>
      assembleChars_pseudoInstruction h hp he ho⟩
    rw [mnemonicOf_append hmnem]
    exact hcap
  · intro line h
    refine ⟨fun ho => ?_, assembleChars_form0_error (formOf_advanceOne h)⟩
    have hline := assembleChars_form0_nil (formOf_advanceOne h) ho
    exact ⟨hline, hline.trans assembleChars_adv_one.symm⟩
  · intro a b m n
    exact ⟨rfl, rfl, rfl, rfl, rfl, rfl, rfl, rfl, rfl, rfl, rfl, rfl, rfl⟩

end Sys2Proof.Machine
end

section
/-! PROOFS. The hash finalizer (R46 to R51): the xor-shift bit by bit, the two hash functions as one pair of mixing passes that
undo one another, and the commands. -/

namespace Sys2Proof.Machine

/-! ## The xor-shift (R46) -/

theorem xs33_eq (x : Word) : xs33 x = x ^^^ (x >>> 33) := (rfl)

theorem getLsbD_xs33 (x : Word) (i : Nat) : (xs33 x).getLsbD i = (x.getLsbD i ^^ x.getLsbD (i + 33)) := by
  rw [xs33_eq, BitVec.getLsbD_xor, BitVec.getLsbD_ushiftRight, Nat.add_comm]

theorem getLsbD_xs33_of_le (x : Word) {i : Nat} (h : 31 ≤ i) : (xs33 x).getLsbD i = x.getLsbD i := by
  have hout : x.getLsbD (i + 33) = false := BitVec.getLsbD_of_ge x (i + 33) (by omega)
  rw [getLsbD_xs33, hout, Bool.xor_false]

/-- Fact (i) of R49: a bit of the second shift is a bit the first one kept, so the two shifts cancel. -/
@[simp] theorem xs33_xs33 (x : Word) : xs33 (xs33 x) = x := by
  refine BitVec.eq_of_getLsbD_eq fun i _ => ?_
  calc (xs33 (xs33 x)).getLsbD i
      = ((xs33 x).getLsbD i ^^ (xs33 x).getLsbD (i + 33)) := getLsbD_xs33 _ _
    _ = ((x.getLsbD i ^^ x.getLsbD (i + 33)) ^^ x.getLsbD (i + 33)) := by
        rw [getLsbD_xs33, getLsbD_xs33_of_le x (by omega)]
    _ = x.getLsbD i := by rw [Bool.xor_assoc, Bool.xor_self, Bool.xor_false]

/-- Settles O10, from the bits of `xs33`. -/
theorem xorShiftKeepsUpperBits : Obligations.XorShiftKeepsUpperBits :=
  fun x => ⟨xs33_eq x, fun _ h _ => getLsbD_xs33_of_le x h, fun i _ => getLsbD_xs33 x i⟩

/-! ## The pair of hash functions (R47, R48, R49) -/

/-- Fact (ii) of R49. -/
theorem mul_mul_cancel_of_mul_eq_one {k k' : Word} (h : k * k' = 1) (y : Word) : y * k * k' = y := by
  rw [mul_assoc, h, mul_one]

/-- The shape R47 and R48 share: three xor-shifts, a multiply by `k` and then one by `l` between them. -/
def mixPasses (k l x : Word) : Word := xs33 (xs33 (xs33 x * k) * l)

theorem hash_eq_mixPasses (x : Word) : hash x = mixPasses 0xff51afd7ed558ccd 0xc4ceb9fe1a85ec53 x := (rfl)

theorem inverseHash_eq_mixPasses (x : Word) :
    inverseHash x = mixPasses 0x9cb4b2f8129337db 0x4f74430c22a54005 x := (rfl)

/-- The passes collapse from the middle outwards when each multiplier is undone in the opposite order (C2). -/
theorem mixPasses_mixPasses {k l k' l' : Word} (hk : k * k' = 1) (hl : l * l' = 1) (x : Word) :
    mixPasses l' k' (mixPasses k l x) = x := by
  simp only [mixPasses, xs33_xs33, mul_mul_cancel_of_mul_eq_one hk, mul_mul_cancel_of_mul_eq_one hl]

@[simp] theorem inverseHash_hash (x : Word) : inverseHash (hash x) = x := by
  rw [inverseHash_eq_mixPasses, hash_eq_mixPasses]
  exact mixPasses_mixPasses (by decide) (by decide) x

@[simp] theorem hash_inverseHash (x : Word) : hash (inverseHash x) = x := by
  rw [inverseHash_eq_mixPasses, hash_eq_mixPasses]
  exact mixPasses_mixPasses (by decide) (by decide) x

theorem hash_bijective : Function.Bijective hash :=
  Function.bijective_iff_has_inverse.mpr ⟨inverseHash, inverseHash_hash, hash_inverseHash⟩

theorem inverseHash_bijective : Function.Bijective inverseHash :=
  Function.bijective_iff_has_inverse.mpr ⟨hash, hash_inverseHash, inverseHash_hash⟩

/-- Settles O11: both functions are `mixPasses`, with multipliers inverse to one another in the opposite order. -/
theorem hashPairIsInverse : Obligations.HashPairIsInverse :=
  ⟨fun x => ⟨inverseHash_hash x, hash_inverseHash x⟩, hash_bijective, inverseHash_bijective, xs33_xs33,
    fun _ _ y h => mul_mul_cancel_of_mul_eq_one h y⟩

/-! ## The commands HASH and IHASH (R50, R51) -/

/-- Settles O12: each of the two commands is one response, an update of the response alone. -/
theorem hashCommandsAnswer : Obligations.HashCommandsAnswer :=
  fun x s => ⟨exec_hash_eq x s, exec_ihash_eq x s⟩

/-- Settles O13: the second response replaces the first (`State.respond_respond`), and its data is `x` by R49. -/
theorem hashCommandsRoundTrip : Obligations.HashCommandsRoundTrip := by
  intro x s
  refine ⟨⟨hash x, _, exec_hash_eq x s, s.respond_response _ _, ?_⟩,
    ⟨inverseHash x, _, exec_ihash_eq x s, s.respond_response _ _, ?_⟩⟩
  · rw [exec_ihash_eq, State.respond_respond, inverseHash_hash, State.respond_eq]
  · rw [exec_hash_eq, State.respond_respond, hash_inverseHash, State.respond_eq]

end Sys2Proof.Machine
end

section
/-! PROOFS. The state transition engine (R53 to R59): `advanceOne` as xor-shift mixes, its inverse, the iterate `ADV`
leaves, and the commands NEXT and ADV on a seeded block. -/

namespace Sys2Proof.Machine

/-! ## The xor-shifts inside `advanceOne` (R53) -/

/-- `x ^ (x << k)`. -/
def xorShl (k : Nat) (x : Word) : Word := x ^^^ (x <<< k)

/-- `x ^ (x >> k)`. -/
def xorShr (k : Nat) (x : Word) : Word := x ^^^ (x >>> k)

theorem xor_xor_xor_comm (a b c d : Word) : (a ^^^ b) ^^^ (c ^^^ d) = (a ^^^ c) ^^^ (b ^^^ d) := by
  ac_rfl

theorem xor_telescope (a b c : Word) : (a ^^^ b) ^^^ (b ^^^ c) = a ^^^ c := by
  rw [← BitVec.xor_assoc, xor_cancel_right]

theorem xorShl_xor (k : Nat) (x y : Word) : xorShl k (x ^^^ y) = xorShl k x ^^^ xorShl k y := by
  rw [xorShl, BitVec.shiftLeft_xor_distrib, xor_xor_xor_comm, ← xorShl, ← xorShl]

theorem xorShr_xor (k : Nat) (x y : Word) : xorShr k (x ^^^ y) = xorShr k x ^^^ xorShr k y := by
  rw [xorShr, BitVec.ushiftRight_xor_distrib, xor_xor_xor_comm, ← xorShr, ← xorShr]

/-- The first half of R59's inverse: the shifted copies cancel in pairs, and the last one is shifted out. -/
theorem undo_xorShr_17 {u t : Word} (h : u = xorShr 17 t) : u ^^^ (u >>> 17) ^^^ (u >>> 34) ^^^ (u >>> 51) = t := by
  have hout : t >>> 68 = 0 := BitVec.ushiftRight_eq_zero (by decide)
  have hshift (k : Nat) : u >>> k = t >>> k ^^^ t >>> (17 + k) := by
    rw [h, xorShr, BitVec.ushiftRight_xor_distrib, ← BitVec.shiftRight_add]
  simp only [hshift, Nat.reduceAdd, hout]
  simpa only [h, xorShr, xor_telescope] using xor_zero t

/-- The second half of R59's inverse. -/
theorem undo_xorShl_23 {t x : Word} (h : t = xorShl 23 x) : t ^^^ (t <<< 23) ^^^ (t <<< 46) = x := by
  have hout : x <<< 69 = 0 := BitVec.shiftLeft_eq_zero (by decide)
  have hshift (k : Nat) : t <<< k = x <<< k ^^^ x <<< (23 + k) := by
    rw [h, xorShl, BitVec.shiftLeft_xor_distrib, ← BitVec.shiftLeft_add]
  simp only [hshift, Nat.reduceAdd, hout]
  simpa only [h, xorShl, xor_telescope] using xor_zero x

/-! ## `advanceOne` (R53, R55, R58) -/

@[simp] theorem advanceOne_seed0 (p : Seeds) : (advanceOne p).1.1 = p.2 := (rfl)

theorem advanceOne_out (p : Seeds) : (advanceOne p).2 = (advanceOne p).1.1 + (advanceOne p).1.2 := (rfl)

/-- The new second word: a mix of the old first word xored with a mix of the old second word. -/
theorem advanceOne_seed1 (p : Seeds) : (advanceOne p).1.2 = xorShr 17 (xorShl 23 p.1) ^^^ xorShr 26 p.2 := by
  have hdef : (advanceOne p).1.2 =
      xorShl 23 p.1 ^^^ p.2 ^^^ (xorShl 23 p.1 >>> 17) ^^^ (p.2 >>> 26) := (rfl)
  rw [hdef, BitVec.xor_assoc _ _ (p.2 >>> 26), xor_xor_xor_comm, ← xorShr, ← xorShr]

@[simp] theorem advanceOne_zero : advanceOne (0, 0) = ((0, 0), 0) := by decide

/-- Fact (v) of R55, the new second word: both mixes are linear over GF(2). -/
theorem advanceOne_seed1_xor (p q : Seeds) :
    (advanceOne (p.1 ^^^ q.1, p.2 ^^^ q.2)).1.2 = (advanceOne p).1.2 ^^^ (advanceOne q).1.2 := by
  simp only [advanceOne_seed1, xorShl_xor, xorShr_xor]
  exact xor_xor_xor_comm _ _ _ _

/-- Settles O14: the equations of `advanceOne`, its linearity, and two states whose outputs carry. -/
theorem transitionIdentities : Obligations.TransitionIdentities := by
  refine ⟨fun p => ⟨advanceOne_seed0 p, advanceOne_out p, advanceOne_out _⟩, fun p => ?_,
    fun p q => Prod.ext rfl (advanceOne_seed1_xor p q), fun h => ?_⟩
  · exact (advanceOne_seed1 p).trans (BitVec.xor_assoc _ _ _).symm
  · exact absurd (h (0, 1) (1, 0)) (by decide)

/-! ## The inverse of the state part (R59) -/

/-- The state before the one `advanceOne` leaves, by the formulas of R59. -/
def retreat (q : Seeds) : Seeds :=
  let u := q.2 ^^^ q.1 ^^^ (q.1 >>> 26)
  let t := u ^^^ (u >>> 17) ^^^ (u >>> 34) ^^^ (u >>> 51)
  (t ^^^ (t <<< 23) ^^^ (t <<< 46), q.1)

/-- Xoring the new second word with the mix of the new first one leaves the mix of the lost word, which R59's formulas
undo. -/
theorem retreat_advanceOne (p : Seeds) : retreat (advanceOne p).1 = p := by
  have hu : (advanceOne p).1.2 ^^^ p.2 ^^^ (p.2 >>> 26) = xorShr 17 (xorShl 23 p.1) := by
    rw [advanceOne_seed1, BitVec.xor_assoc _ p.2, ← xorShr, xor_cancel_right]
  exact Prod.ext (undo_xorShl_23 (undo_xorShr_17 hu)) rfl

theorem advanceOne_state_injective : Function.Injective fun p : Seeds => (advanceOne p).1 :=
  Function.LeftInverse.injective (g := retreat) retreat_advanceOne

/-- Settles O16: `retreat` undoes the state part, which is injective on a finite set and so a bijection; the fixed point
`(0, 0)` is then its own only preimage. -/
theorem transitionIsBijection : Obligations.TransitionIsBijection := by
  refine ⟨fun p => ⟨rfl, ?_⟩, Finite.injective_iff_bijective.mp advanceOne_state_injective, fun p => ⟨fun h => ?_, ?_⟩⟩
  · exact (congrArg Prod.fst (retreat_advanceOne p)).symm
  · exact advanceOne_state_injective (h.trans (congrArg Prod.fst advanceOne_zero).symm)
  · rintro rfl
    exact congrArg Prod.fst advanceOne_zero

/-! ## `advance` (R56) -/

@[simp] theorem countSteps_eq_toNat (n : Count) : countSteps n = n.toNat :=
  BitVec.toNat_setWidth_of_le (by decide)

theorem advance_eq_iterate (n : Nat) (p : Seeds) : advance n p = (fun q : Seeds => (advanceOne q).1)^[n] p := by
  induction n generalizing p with
  | zero => rfl
  | succ n ih => exact ih (advanceOne p).1

theorem advance_succ (n : Nat) (p : Seeds) : advance (n + 1) p = advance n (advanceOne p).1 := (rfl)

theorem drawAfter_succ (n : Nat) (p : Seeds) : drawAfter (n + 1) p = drawAfter n (advanceOne p).1 := (rfl)

theorem advanceOne_advance (n : Nat) (p : Seeds) : (advanceOne (advance n p)).1 = advance (n + 1) p := by
  simp only [advance_eq_iterate, Function.iterate_succ_apply']

theorem advance_advance (a b : Nat) (p : Seeds) : advance b (advance a p) = advance (a + b) p := by
  simp only [advance_eq_iterate, Nat.add_comm a b, Function.iterate_add_apply]

theorem advance_zero_seeds (n : Nat) : advance n (0, 0) = (0, 0) := by
  rw [advance_eq_iterate]
  exact Function.iterate_fixed (congrArg Prod.fst advanceOne_zero) n

/-! ## The draws of a seeded block (R54, R57, R69, R72) -/

section Seeded

variable {s : State} (hs : s.seeded = true)
include hs

theorem exec_next_of_seeded :
    exec .next s = .next ((s.setSeeds (advanceOne s.seeds).1).respond .ok (advanceOne s.seeds).2) := by
  rw [exec_next_eq, s.ifSeeded_of _ hs]

theorem exec_adv_of_seeded (n : Count) :
    exec (.adv n) s = .next ((s.setSeeds (advance n.toNat s.seeds)).respond .ok 0) := by
  rw [exec_adv_eq, s.ifSeeded_of _ hs, countSteps_eq_toNat]

theorem exec_ucap_of_seeded {m : Word} (hm : m ≠ 0) :
    exec (.ucap m) s =
      .next ((s.setSeeds (advanceOne s.seeds).1).respond .ok ((advanceOne s.seeds).2 >>> 1 % m)) := by
  rw [exec_ucap_eq, s.ifSeeded_of _ hs, s.ifModulus_of _ _ hm, sample_residue]

theorem exec_cap_of_seeded {m : Word} (hm : m ≠ 0) : exec (.cap m) s = .next (capAttempt m s) := by
  rw [exec_cap_eq, s.ifSeeded_of _ hs, s.ifModulus_of _ _ hm]

end Seeded

/-- Settles O17: the draw of a seeded block, with `advanceOne` written out. -/
theorem nextAnswersDraw : Obligations.NextAnswersDraw := by
  intro s hs
  rw [exec_next_of_seeded hs, State.respond_setSeeds]
  rfl

/-- Settles O18: `advance` is the iterate of the state part, and the count is zero-extended without loss. -/
theorem advLeavesTheIterate : Obligations.AdvLeavesTheIterate := by
  intro n s hs
  rw [exec_adv_of_seeded hs, State.respond_setSeeds, advance_eq_iterate]
  rfl

/-! ## The all-zero state (R58) -/

@[simp] theorem State.setSeeds_self (s : State) : s.setSeeds s.seeds = s := (rfl)

theorem State.setPendingCap_self {s : State} {o : Option Word} (h : s.pendingCap = o) : s.setPendingCap o = s := by
  rw [← h]
  rfl

/-- The output 0 has residue 0, and it overflows for no modulus but 0 (R67). -/
theorem sample_zero_not_overflowed {m : Word} (hm : m ≠ 0) : (sample 0 m).overflowed = false := by
  have hpos : m.toNat ≠ 0 := BitVec.toNat_ne_iff_ne.mpr hm
  simpa [sample, overflowTest, BitVec.ult] using hpos

/-- Settles O15: every draw of a block in the fixed point writes its own seeds back and answers 0, an attempt of a `CAP`
being accepted because the output 0 never overflows. -/
theorem zeroSeedsStayZero : Obligations.ZeroSeedsStayZero := by
  refine ⟨advanceOne_zero, fun s hs h0 h1 hp => ?_⟩
  have hseeds : s.seeds = (0, 0) := Prod.ext h0 h1
  have hdraw : advanceOne s.seeds = (s.seeds, 0) := by rw [hseeds, advanceOne_zero]
  have hadv (n : Nat) : advance n s.seeds = s.seeds := by rw [hseeds, advance_zero_seeds]
  have hres (m : Word) : (0 : Word) >>> 1 % m = 0 := by simp
  refine ⟨?_, fun n => ?_, fun m hm => ?_, fun m hm => ?_⟩
  · rw [exec_next_of_seeded hs, hdraw, s.setSeeds_self, State.respond_eq]
  · rw [exec_adv_of_seeded hs, hadv, s.setSeeds_self, State.respond_eq]
  · rw [exec_ucap_of_seeded hs hm, hdraw, s.setSeeds_self, hres, State.respond_eq]
  · have hacc : (sample (advanceOne s.seeds).2 m).overflowed = false := by
      rw [hdraw]
      exact sample_zero_not_overflowed hm
    rw [exec_cap_of_seeded hs hm, capAttempt_accepted m s (.inr hacc), hdraw, s.setSeeds_self,
      State.setPendingCap_self hp, hres, State.respond_eq]

/-! ## Runs of `ADV` and `NEXT` (R57) -/

/-- New seeds and their response replace the seeds and the response before them. -/
theorem State.respond_setSeeds_respond_setSeeds (s : State) (p q : Seeds) (st st' : Status) (d d' : Word) :
    (((s.setSeeds p).respond st d).setSeeds q).respond st' d' = (s.setSeeds q).respond st' d' := (rfl)

/-- A draw's state is seeded when the state before it was. -/
theorem State.respond_setSeeds_seeded_of {s : State} (hs : s.seeded = true) (p : Seeds) (st : Status) (d : Word) :
    ((s.setSeeds p).respond st d).seeded = true := hs

/-- Settles O19: the second `ADV` iterates on from where the first stopped, and the sum of the counts does not wrap. -/
theorem advCountsAdd : Obligations.AdvCountsAdd := by
  intro a b s hs hab
  have hsum : (a + b).toNat = a.toNat + b.toNat := BitVec.toNat_add_of_lt hab
  refine ⟨_, _, exec_adv_of_seeded hs a, exec_adv_of_seeded (State.respond_setSeeds_seeded_of hs _ _ _) b, ?_⟩
  rw [exec_adv_of_seeded hs, hsum, State.respond_setSeeds_respond_setSeeds, State.respond_seeds, State.setSeeds_seeds,
    advance_advance]

theorem nextTimes_succ {s t : State} (k : Nat) (h : exec .next s = .next t) : nextTimes (k + 1) s = nextTimes k t := by
  rw [nextTimes, h]

/-- `NEXT` executed `n + 1` times leaves the state advanced `n + 1` times, and answers the last of the draws. -/
theorem nextTimes_succ_of_seeded (n : Nat) {s : State} (hs : s.seeded = true) :
    nextTimes (n + 1) s = .next ((s.setSeeds (advance (n + 1) s.seeds)).respond .ok (drawAfter n s.seeds)) := by
  induction n generalizing s with
  | zero => exact nextTimes_succ 0 (exec_next_of_seeded hs)
  | succ n ih =>
    rw [nextTimes_succ (n + 1) (exec_next_of_seeded hs), ih (State.respond_setSeeds_seeded_of hs _ _ _),
      State.respond_setSeeds_respond_setSeeds, State.respond_seeds, State.setSeeds_seeds,
      ← advance_succ, ← drawAfter_succ]

/-- Settles O20: both runs advance the state `n + 1` times, and both answer the draw made after the first `n`. -/
theorem advThenNextIsLastOfNexts : Obligations.AdvThenNextIsLastOfNexts := by
  intro n s hs
  refine ⟨_, _, exec_adv_of_seeded hs n, exec_next_of_seeded (State.respond_setSeeds_seeded_of hs _ _ _), ?_⟩
  rw [nextTimes_succ_of_seeded n.toNat hs, State.respond_setSeeds_respond_setSeeds, State.respond_seeds,
    State.setSeeds_seeds, advanceOne_advance, drawAfter]

end Sys2Proof.Machine
end

section
/-! PROOFS. The seed constructor (R60 to R66): the zero-seed substitution, the four commands in every state, where their forms
agree, and which scalar seeds leave one state. -/

namespace Sys2Proof.Machine

/-! ## The zero-seed substitution (R60) -/

theorem subst0_eq_ite (szs : Bool) (v : Word) :
    subst0 szs v = if szs = true ∧ v = 0 then 0x8000000000000000 else v := by
  cases szs <;> simp [subst0]

@[simp] theorem subst0_false (v : Word) : subst0 false v = v := by simp [subst0_eq_ite]

@[simp] theorem subst0_true_zero : subst0 true 0 = 0x8000000000000000 := (rfl)

theorem subst0_of_ne_zero (szs : Bool) {v : Word} (hv : v ≠ 0) : subst0 szs v = v := if_neg hv

/-- With `CFG.SZS = 1` the substitution merges 0 with the value it is replaced by, and no other two seeds. -/
theorem subst0_true_eq_iff (a b : Word) :
    subst0 true a = subst0 true b ↔
      a = b ∨ (a = 0 ∧ b = 0x8000000000000000) ∨ (a = 0x8000000000000000 ∧ b = 0) := by
  rcases eq_or_ne a 0 with rfl | ha <;> rcases eq_or_ne b 0 with rfl | hb
  · simp
  · rw [subst0_true_zero, subst0_of_ne_zero true hb]
    grind
  · rw [subst0_true_zero, subst0_of_ne_zero true ha]
    grind
  · rw [subst0_of_ne_zero true ha, subst0_of_ne_zero true hb]
    tauto

/-- R65 (iv) for the substitution alone. -/
theorem subst0_eq_iff (szs : Bool) (a b : Word) :
    subst0 szs a = subst0 szs b ↔
      a = b ∨ (szs = true ∧ ((a = 0 ∧ b = 0x8000000000000000) ∨ (a = 0x8000000000000000 ∧ b = 0))) := by
  cases szs with
  | false => simp
  | true => simp [subst0_true_eq_iff]

/-! ## The four commands (R61 to R64) -/

/-- Settles O21: the update of SEEDPAIR as one record. -/
theorem seedpairLoadsVerbatim : Obligations.SeedpairLoadsVerbatim := by
  intro s0 s1 s
  rw [exec_seedpair_eq, State.respond_construct]

/-- Settles O22: the update of SEED as one record, with the substitution written out. -/
theorem seedExpandsScalar : Obligations.SeedExpandsScalar := by
  intro v s x
  rw [exec_seed_eq, State.respond_construct, subst0_eq_ite]

/-- Settles O23: the update of SEED0 as one record. -/
theorem seedZeroHashesOperand : Obligations.SeedZeroHashesOperand := by
  intro v s
  rw [exec_seed0_eq, State.respond_construct]

/-- Settles O24: the second half is computed again as the hash of an inverse hash, which is the operand by R49 (C7). -/
theorem seedOneKeepsOperand : Obligations.SeedOneKeepsOperand := by
  intro v s
  rw [exec_seed1_eq, State.respond_construct, hash_inverseHash]

/-! ## Where the forms agree (R65) -/

/-- R65 (ii). -/
theorem exec_seed0_hash_subst0 (v : Word) (s : State) :
    exec (.seed0 (hash (subst0 s.cfgSzs v))) s = exec (.seed v) s := by
  rw [exec_seed0_eq, exec_seed_eq]

/-- R65 (iii): the inverse hash in SEED1 gives back the half that SEED0 is given. -/
theorem exec_seed1_hash (a : Word) (s : State) : exec (.seed1 (hash a)) s = exec (.seed0 a) s := by
  rw [exec_seed1_eq, exec_seed0_eq, inverseHash_hash]

theorem exec_seedpair_hash (a : Word) (s : State) : exec (.seedpair a (hash a)) s = exec (.seed0 a) s := by
  rw [exec_seedpair_eq, exec_seed0_eq]

/-- Settles O25. -/
theorem seedFormsAgree : Obligations.SeedFormsAgree :=
  fun s => ⟨fun v => exec_seed0_hash_subst0 v s, fun a => exec_seed1_hash a s, fun a => exec_seedpair_hash a s⟩

/-! ## Which scalar seeds leave one state (R65 (iv)) -/

/-- SEED0 keeps its operand in `seed0`, so the state it leaves determines the operand. -/
theorem exec_seed0_eq_iff (a b : Word) (s : State) : exec (.seed0 a) s = exec (.seed0 b) s ↔ a = b := by
  constructor
  · intro h
    rw [exec_seed0_eq, exec_seed0_eq, Host.Outcome.next.injEq] at h
    simpa using congrArg State.seed0 h
  · rintro rfl
    rfl

/-- `hash` is injective, so two scalar seeds leave one state exactly when they are one seed after the substitution. -/
theorem exec_seed_eq_iff (a b : Word) (s : State) :
    exec (.seed a) s = exec (.seed b) s ↔ subst0 s.cfgSzs a = subst0 s.cfgSzs b := by
  rw [← exec_seed0_hash_subst0 a, ← exec_seed0_hash_subst0 b, exec_seed0_eq_iff, hash_bijective.injective.eq_iff]

/-- Settles O26: equality of the states is equality of the substituted seeds, and the substitution merges 0 and 2^63 alone. -/
theorem seedIsInjective : Obligations.SeedIsInjective :=
  fun a b s => (exec_seed_eq_iff a b s).trans (subst0_eq_iff s.cfgSzs a b)

end Sys2Proof.Machine
end

section
/-! PROOFS. One sample of the capped sampler (R67, R71, R74): when it overflows, and how large its residue can be. -/

namespace Sys2Proof.Machine

/-- The draw of a sample has 63 bits: bit 0 of the output is discarded (R67, C8). -/
theorem toNat_ushiftRight_one_lt (raw : Word) : (raw >>> 1).toNat < 2 ^ 63 := by
  rw [BitVec.toNat_ushiftRight, Nat.shiftRight_eq_div_pow]
  have := raw.isLt
  omega

section Modulus

variable {m : Word} (hm : m ≠ 0)
include hm

theorem toNat_pos_of_ne_zero : 0 < m.toNat :=
  Nat.pos_of_ne_zero (BitVec.toNat_ne_iff_ne.mpr hm)

/-- R74: a residue is below the modulus, and no more than the 63 bits it is taken of. -/
theorem toNat_residue_lt (raw : Word) : (raw >>> 1 % m).toNat < m.toNat ∧ (raw >>> 1 % m).toNat < 2 ^ 63 := by
  rw [BitVec.toNat_umod]
  exact ⟨Nat.mod_lt _ (toNat_pos_of_ne_zero hm), (Nat.mod_le _ _).trans_lt (toNat_ushiftRight_one_lt raw)⟩

/-- R71: the test by wrapping sums says whether the true sum reaches 2^64. The second sum never wraps. If the first does not
wrap either, it is at least `m`, which exceeds the residue; if it wraps, then `m > 2^63`, so the residue is `bits` itself,
which is not below the wrapped sum. -/
theorem sample_overflowed_iff (raw : Word) :
    (sample raw m).overflowed = true ↔ 2 ^ 64 ≤ (raw >>> 1).toNat + m.toNat := by
  have hbits := toNat_ushiftRight_one_lt raw
  have hlt := m.isLt
  have hone : (1 : Word).toNat = 1 := rfl
  obtain ⟨hres, -⟩ := toNat_residue_lt hm raw
  have hle : (raw >>> 1 % m).toNat ≤ (raw >>> 1).toNat := by
    rw [BitVec.toNat_umod]
    exact Nat.mod_le _ _
  have hself (h : (raw >>> 1).toNat < m.toNat) : (raw >>> 1 % m).toNat = (raw >>> 1).toNat := by
    rw [BitVec.toNat_umod, Nat.mod_eq_of_lt h]
  have htest : (sample raw m).overflowed = overflowTest (raw >>> 1) m (raw >>> 1 % m) := (rfl)
  rw [htest, overflowTest, BitVec.ult_iff_lt, BitVec.lt_def, BitVec.toNat_add, BitVec.toNat_add, hone]
  generalize (raw >>> 1 % m).toNat = r at *
  generalize (raw >>> 1).toNat = b at *
  omega

theorem sample_not_overflowed_iff (raw : Word) :
    (sample raw m).overflowed = false ↔ (raw >>> 1).toNat + m.toNat < 2 ^ 64 := by
  rw [← Bool.not_eq_true, sample_overflowed_iff hm, Nat.not_le]

theorem sample_not_overflowed_of_le (raw : Word) (h : m.toNat ≤ 2 ^ 63) : (sample raw m).overflowed = false := by
  have := toNat_ushiftRight_one_lt raw
  rw [sample_not_overflowed_iff hm]
  omega

/-- Only a modulus above 2^63 can be rejected (R71). -/
theorem lt_toNat_of_sample_overflowed {raw : Word} (h : (sample raw m).overflowed = true) : 2 ^ 63 < m.toNat := by
  by_contra hle
  simp [sample_not_overflowed_of_le hm raw (Nat.le_of_not_lt hle)] at h

end Modulus

theorem ne_zero_of_two_pow_63_lt {m : Word} (h : 2 ^ 63 < m.toNat) : m ≠ 0 :=
  BitVec.toNat_ne_iff_ne.mp (Nat.ne_zero_of_lt h)

/-- Above 2^63 a draw of 63 bits is its own residue (R71). -/
theorem residue_eq_bits {m : Word} (h : 2 ^ 63 < m.toNat) (raw : Word) : raw >>> 1 % m = raw >>> 1 :=
  BitVec.umod_eq_of_lt ((toNat_ushiftRight_one_lt raw).trans h)

/-- Settles O28: each clause is the test of the true sum, rearranged. -/
theorem overflowIsTrueSum : Obligations.OverflowIsTrueSum := by
  intro raw m hm r
  have hsum : r.overflowed = true ↔ 2 ^ 64 ≤ r.bits.toNat + m.toNat := sample_overflowed_iff hm raw
  have hlt := m.isLt
  refine ⟨hsum, sample_not_overflowed_of_le hm raw, fun h => ⟨residue_eq_bits h raw, ?_⟩, ?_⟩
  · rw [hsum]
    omega
  · rw [hsum]
    omega

end Sys2Proof.Machine
end

section
/-! PROOFS. The answers of commands (R41, R69 to R72): which command raises which error, what a sampler of a seeded block
answers, and what the answer of a `CAP` says of its draw. -/

namespace Sys2Proof.Machine

/-! ## The checks of a command (R70, R79) -/

/-- The two checks of a draw with a modulus, in their order (R80): it raises the one error or the other, or goes on. -/
theorem State.ifSeeded_ifModulus_eq_cases {s u t : State} {m : Word} (h : s.ifSeeded (s.ifModulus m u) = t) :
    (s.seeded = false ∧ t = s.raise .unseeded) ∨ (s.seeded = true ∧ m = 0 ∧ t = s.raise .divisionByZero) ∨
      (s.seeded = true ∧ m ≠ 0 ∧ t = u) := by
  subst h
  rcases s.ifSeeded_cases (s.ifModulus m u) with ⟨hs, hu⟩ | ⟨hs, hu⟩
  · rcases eq_or_ne m 0 with rfl | hm
    · exact .inr (.inl ⟨hs, rfl, by rw [hu, State.ifModulus_zero]⟩)
    · exact .inr (.inr ⟨hs, hm, by rw [hu, State.ifModulus_of _ _ _ hm]⟩)
  · exact .inl ⟨hs, hu⟩

/-- Everything UCAP can do (R69). -/
theorem exec_ucap_cases {m : Word} {s t : State} (h : exec (.ucap m) s = .next t) :
    (s.seeded = false ∧ t = s.raise .unseeded) ∨ (s.seeded = true ∧ m = 0 ∧ t = s.raise .divisionByZero) ∨
      (s.seeded = true ∧ m ≠ 0 ∧
        t = (s.setSeeds (advanceOne s.seeds).1).respond .ok ((advanceOne s.seeds).2 >>> 1 % m)) := by
  rw [exec_ucap_eq, Host.Outcome.next.injEq] at h
  exact State.ifSeeded_ifModulus_eq_cases h

/-- Everything CAP can do when it is executed (R72). -/
theorem exec_cap_cases {m : Word} {s t : State} (h : exec (.cap m) s = .next t) :
    (s.seeded = false ∧ t = s.raise .unseeded) ∨ (s.seeded = true ∧ m = 0 ∧ t = s.raise .divisionByZero) ∨
      (s.seeded = true ∧ m ≠ 0 ∧ t = capAttempt m s) := by
  rw [exec_cap_eq, Host.Outcome.next.injEq] at h
  exact State.ifSeeded_ifModulus_eq_cases h

/-- A response of an attempt that had none before it is OK, with the residue of an accepted draw (R72). -/
theorem capAttempt_answer {m : Word} {s : State} {r : Response} (hn : s.response = none)
    (hr : (capAttempt m s).response = some r) :
    r = ⟨.ok, (advanceOne s.seeds).2 >>> 1 % m⟩ ∧
      (s.cfgRbs = false ∨ (sample (advanceOne s.seeds).2 m).overflowed = false) := by
  rcases capAttempt_cases m s with ⟨-, -, hu⟩ | ⟨hacc, hu⟩
  · simp [hu, hn] at hr
  · exact ⟨by simpa [hu] using hr.symm, hacc⟩

/-- Every command of a block with no response waiting raises `Unseeded` on an unseeded block, raises `DivisionByZero` on a
seeded one, being UCAP 0 or CAP 0, or gives no response that is not OK (R76, R82). -/
theorem exec_raises_or_ok {i : Instr} {s t : State} (h : exec i s = .next t) (hn : s.response = none) :
    (s.seeded = false ∧ t = s.raise .unseeded) ∨
    (s.seeded = true ∧ (i = .ucap 0 ∨ i = .cap 0) ∧ t = s.raise .divisionByZero) ∨
    (¬(i = .ucap 0 ∨ i = .cap 0) ∧ ∀ r, t.response = some r → r.status = .ok) := by
  cases i with
  | hash _ | ihash _ | seedpair _ _ | seed _ | seed0 _ | seed1 _ =>
    simp only [exec_hash_eq, exec_ihash_eq, exec_seedpair_eq, exec_seed_eq, exec_seed0_eq, exec_seed1_eq,
      Host.Outcome.next.injEq] at h
    subst h
    exact .inr (.inr (by simp))
  | next | adv _ =>
    simp only [exec_next_eq, exec_adv_eq, Host.Outcome.next.injEq] at h
    subst h
    rcases s.ifSeeded_cases _ with ⟨-, hu⟩ | herr
    · rw [hu]
      exact .inr (.inr (by simp))
    · exact .inl herr
  | ucap m =>
    rcases exec_ucap_cases h with herr | ⟨hs, rfl, ht⟩ | ⟨-, hm, rfl⟩
    · exact .inl herr
    · exact .inr (.inl ⟨hs, .inl rfl, ht⟩)
    · exact .inr (.inr ⟨by simpa using hm, by simp⟩)
  | cap m =>
    rcases exec_cap_cases h with herr | ⟨hs, rfl, ht⟩ | ⟨-, hm, rfl⟩
    · exact .inl herr
    · exact .inr (.inl ⟨hs, .inr rfl, ht⟩)
    · exact .inr (.inr ⟨by simpa using hm, fun r hr => by rw [(capAttempt_answer hn hr).1]⟩)

/-- Settles O39: the modulus is checked before any draw, and no other command raises `DivisionByZero`. -/
theorem modulusZeroAnswersDivZero : Obligations.ModulusZeroAnswersDivZero := by
  refine ⟨fun s hs => ?_, fun i s t hn h => ?_⟩
  · rw [exec_ucap_eq, exec_cap_eq, s.ifSeeded_of _ hs, s.ifSeeded_of _ hs, s.ifModulus_zero, s.ifModulus_zero,
      State.raise_eq]
    exact ⟨rfl, rfl⟩
  · rcases exec_raises_or_ok h hn with ⟨hs, rfl⟩ | ⟨hs, hi, rfl⟩ | ⟨hi, hok⟩
    · simp [hs, Exception.status]
    · exact iff_of_true ⟨0, rfl⟩ ⟨hs, hi⟩
    · refine iff_of_false ?_ fun hz => hi hz.2
      rintro ⟨d, hd⟩
      cases hok _ hd

/-! ## The samplers on a seeded block (R69, R72) -/

/-- Settles O29: the residue of one draw, with `advanceOne` written out. -/
theorem ucapAnswersResidue : Obligations.UcapAnswersResidue := by
  intro m s hs hm
  rw [exec_ucap_of_seeded hs hm, State.respond_setSeeds]
  rfl

/-- Settles O31: each of the three grounds accepts the first attempt. -/
theorem capCompletesWhenAccepted : Obligations.CapCompletesWhenAccepted := by
  intro m s hs hm t n1 bits hground
  have hacc : s.cfgRbs = false ∨ (sample (advanceOne s.seeds).2 m).overflowed = false := by
    rcases hground with hrbs | hle | hsum
    · exact .inl hrbs
    · exact .inr (sample_not_overflowed_of_le hm _ hle)
    · exact .inr ((sample_not_overflowed_iff hm _).mpr hsum)
  rw [exec_cap_of_seeded hs hm, capAttempt_accepted m s hacc, State.respond_setPendingCap_setSeeds]
  rfl

/-- Settles O32: the true sum reaches 2^64, so the attempt is rejected; the modulus is not 0, since `bits < 2^63`. -/
theorem capRejectedStaysPending : Obligations.CapRejectedStaysPending := by
  intro m s hs hrbs t n1 hsum
  have hm : m ≠ 0 := by
    have hbits := toNat_ushiftRight_one_lt (s.seed1 + n1)
    have hpos : 0 < m.toNat := by omega
    exact BitVec.toNat_ne_iff_ne.mp (Nat.ne_zero_of_lt hpos)
  have hover : (sample (advanceOne s.seeds).2 m).overflowed = true := (sample_overflowed_iff hm _).mpr hsum
  rw [exec_cap_of_seeded hs hm, capAttempt_rejected m s hover hrbs, State.setPendingCap_setSeeds]
  rfl

/-- Settles O33: both make the same checks, and past them the first attempt of CAP is accepted and answers as UCAP does. -/
theorem capIsUcapWithoutReroll : Obligations.CapIsUcapWithoutReroll := by
  intro m s hp hground
  rcases eq_or_ne m 0 with rfl | hm
  · rw [exec_cap_eq, exec_ucap_eq, s.ifModulus_zero, s.ifModulus_zero]
  · have hacc : s.cfgRbs = false ∨ (sample (advanceOne s.seeds).2 m).overflowed = false :=
      hground.imp_right (sample_not_overflowed_of_le hm _)
    have hclear (p : Seeds) : (s.setSeeds p).setPendingCap none = s.setSeeds p := State.setPendingCap_self hp
    rw [exec_cap_eq, exec_ucap_eq, capAttempt_accepted m s hacc, sample_residue, hclear]

/-! ## What an answer says of the draw (R71, R72, R74) -/

/-- A UCAP that answers OK has passed its checks and answers the residue of its draw. -/
theorem exec_ucap_answer {m : Word} {s t : State} {d : Word} (h : exec (.ucap m) s = .next t)
    (hd : t.response = some ⟨.ok, d⟩) : m ≠ 0 ∧ d = (advanceOne s.seeds).2 >>> 1 % m := by
  rcases exec_ucap_cases h with ⟨-, rfl⟩ | ⟨-, -, rfl⟩ | ⟨-, hm, rfl⟩
  · simp [Exception.status] at hd
  · simp [Exception.status] at hd
  · exact ⟨hm, by simpa using hd.symm⟩

/-- A CAP that answers OK has passed its checks and answers the residue of an accepted draw. -/
theorem exec_cap_answer {m : Word} {s t : State} {d : Word} (hn : s.response = none)
    (h : exec (.cap m) s = .next t) (hd : t.response = some ⟨.ok, d⟩) :
    m ≠ 0 ∧ d = (advanceOne s.seeds).2 >>> 1 % m ∧
      (s.cfgRbs = false ∨ (sample (advanceOne s.seeds).2 m).overflowed = false) := by
  rcases exec_cap_cases h with ⟨-, rfl⟩ | ⟨-, -, rfl⟩ | ⟨-, hm, rfl⟩
  · simp [Exception.status] at hd
  · simp [Exception.status] at hd
  · obtain ⟨hr, hacc⟩ := capAttempt_answer hn hd
    exact ⟨hm, congrArg Response.data hr, hacc⟩

/-- An accepted draw with a modulus above 2^63 is its own residue, and its true sum with the modulus is below 2^64 (R71). -/
theorem residue_lt_of_not_overflowed {m raw : Word} (hm : 2 ^ 63 < m.toNat)
    (h : (sample raw m).overflowed = false) : (raw >>> 1 % m).toNat < 2 ^ 64 - m.toNat := by
  have hsum := (sample_not_overflowed_iff (ne_zero_of_two_pow_63_lt hm) raw).mp h
  rw [residue_eq_bits hm]
  omega

/-- A step that answers while a `CAP` is pending is an attempt of it that was accepted (R72): a reset and a move of the
host's list give no response, and neither a command nor a taking can happen. -/
theorem step_pending_answer {m : Word} {s t : State} {r : Response} (hp : s.pendingCap = some m)
    (hn : s.response = none) (h : step s = .next t) (hr : t.response = some r) :
    r = ⟨.ok, (advanceOne s.seeds).2 >>> 1 % m⟩ ∧
      (s.cfgRbs = false ∨ (sample (advanceOne s.seeds).2 m).overflowed = false) := by
  rcases step_cases h with ⟨_, _, -, hrdy, -⟩ | ⟨hs, -, hb⟩ | ⟨_, _, -, htake, -⟩ | ⟨_, _, _, -, rfl⟩ | ⟨_, _, -, rfl⟩
  · simp [(s.cmdReady_iff.mp hrdy).1] at hp
  · rw [blockProgress_pending (s.setHost hs) m hp] at hb
    cases hb
    exact capAttempt_answer (s := s.setHost hs) hn hr
  · simp [hn] at htake
  · simp at hr
  · simp [hn] at hr

end Sys2Proof.Machine
end

section
/-! PROOFS. The invariant of a pending `CAP` and of the responses (R41, R71 to R73, R93), and what it gives for the answer of
a pending `CAP` (R74). -/

namespace Sys2Proof.Machine

/-! ## The invariant in its parts -/

theorem State.pendingOk_iff (s : State) :
    s.pendingOk = true ↔ ∀ m, s.pendingCap = some m →
      s.seeded = true ∧ s.cfgRbs = true ∧ 2 ^ 63 < m.toNat ∧ s.response = none := by
  cases hp : s.pendingCap <;> simp [State.pendingOk, hp, and_assoc]

theorem State.inv_iff (s : State) :
    s.inv = true ↔ s.pendingOk = true ∧ (∀ r, s.response = some r → r.conforms = true) ∧
      ∀ r ∈ s.taken, r.conforms = true := by
  cases hr : s.response <;> simp [State.inv, hr, and_assoc]

/-- What the invariant says of a pending `CAP`. -/
theorem State.pending_of_inv {s : State} {m : Word} (hinv : s.inv = true) (hp : s.pendingCap = some m) :
    s.seeded = true ∧ s.cfgRbs = true ∧ 2 ^ 63 < m.toNat ∧ s.response = none :=
  s.pendingOk_iff.mp (s.inv_iff.mp hinv).1 m hp

theorem State.pendingOk_of_pendingCap_eq_none {s : State} (hp : s.pendingCap = none) : s.pendingOk = true := by
  simp [State.pendingOk, hp]

theorem Response.conforms_of_ok {r : Response} (h : r.status = .ok) : r.conforms = true := by
  simp [Response.conforms, h]

/-- An exception answers with data 0 (R82). -/
theorem State.conforms_of_raise {s : State} {e : Exception} {r : Response} (h : (s.raise e).response = some r) :
    r.conforms = true := by
  rw [State.raise_response] at h
  cases h
  simp [Response.conforms]

/-! ## Every operation keeps it -/

/-- Only an attempt that overflowed under `CFG.RBS = 1` leaves a `CAP` pending, and then the modulus is above 2^63 (R71). -/
theorem capAttempt_pendingOk {m : Word} {s : State} (hm : m ≠ 0) (hs : s.seeded = true) (hn : s.response = none) :
    (capAttempt m s).pendingOk = true := by
  rcases capAttempt_cases m s with ⟨hrbs, hover, hu⟩ | ⟨-, hu⟩
  · rw [hu, State.pendingOk_iff]
    intro m' hm'
    obtain rfl : m = m' := by simpa using hm'
    exact ⟨hs, hrbs, lt_toNat_of_sample_overflowed hm hover, hn⟩
  · rw [hu]
    exact State.pendingOk_of_pendingCap_eq_none rfl

theorem capAttempt_keeps_inv {m : Word} {s : State} (hm : m ≠ 0) (hs : s.seeded = true) (hn : s.response = none)
    (hinv : s.inv = true) : (capAttempt m s).inv = true := by
  obtain ⟨-, -, htaken⟩ := s.inv_iff.mp hinv
  refine (State.inv_iff _).mpr ⟨capAttempt_pendingOk hm hs hn, fun r hr => ?_, ?_⟩
  · exact Response.conforms_of_ok (by rw [(capAttempt_answer hn hr).1])
  · rwa [(capAttempt_frame m s).taken]

/-- With no `CAP` pending and the responses taken as they were, only a response that waits has to conform. -/
theorem inv_of_not_pending {s t : State} (hinv : s.inv = true) (hp : t.pendingCap = none) (ht : t.taken = s.taken)
    (hr : ∀ r, t.response = some r → r.conforms = true) : t.inv = true := by
  obtain ⟨-, -, htaken⟩ := s.inv_iff.mp hinv
  exact t.inv_iff.mpr ⟨State.pendingOk_of_pendingCap_eq_none hp, hr, by rwa [ht]⟩

theorem raise_keeps_inv {s : State} (e : Exception) (hinv : s.inv = true) (hp : s.pendingCap = none) :
    (s.raise e).inv = true :=
  inv_of_not_pending hinv hp rfl fun _ => State.conforms_of_raise

theorem exec_keeps_inv {i : Instr} {s t : State} (h : exec i s = .next t) (hs : s.cmdReady = true)
    (hinv : s.inv = true) : t.inv = true := by
  obtain ⟨hp, hn⟩ := s.cmdReady_iff.mp hs
  rcases exec_raises_or_ok h hn with ⟨-, rfl⟩ | ⟨-, -, rfl⟩ | ⟨hi, hok⟩
  · exact raise_keeps_inv _ hinv hp
  · exact raise_keeps_inv _ hinv hp
  · have hconf : ∀ r, t.response = some r → r.conforms = true := fun r hr => Response.conforms_of_ok (hok r hr)
    rcases exec_cases h with ⟨_, _, rfl⟩ | ⟨-, -, _, _, rfl⟩ | ⟨-, -, _, _, rfl⟩ | ⟨m, rfl, hseeded, rfl⟩
    · exact inv_of_not_pending hinv hp rfl hconf
    · exact inv_of_not_pending hinv hp rfl hconf
    · exact inv_of_not_pending hinv hp rfl hconf
    · exact capAttempt_keeps_inv (fun hm => hi (.inr (by rw [hm]))) hseeded hn hinv

theorem accept_keeps_inv {w : CmdWord} {s t : State} (h : accept w s = .next t) (hs : s.cmdReady = true)
    (hinv : s.inv = true) : t.inv = true := by
  rcases accept_cases h with ⟨_, -, hi⟩ | rfl
  · exact exec_keeps_inv hi hs hinv
  · exact raise_keeps_inv _ hinv (s.cmdReady_iff.mp hs).1

theorem blockProgress_keeps_inv {s t : State} (h : blockProgress s = .next t) (hinv : s.inv = true) :
    t.inv = true := by
  rcases blockProgress_cases h with ⟨m, hp, rfl⟩ | ⟨-, rfl⟩
  · obtain ⟨hseeded, -, hm, hn⟩ := State.pending_of_inv hinv hp
    exact capAttempt_keeps_inv (ne_zero_of_two_pow_63_lt hm) hseeded hn hinv
  · exact hinv

/-- The response taken joins the ones taken before it; none was waiting beside a pending `CAP`. -/
theorem takeResponse_keeps_inv {s : State} {r : Response} (hr : s.response = some r) (hinv : s.inv = true) :
    (s.takeResponse r).inv = true := by
  obtain ⟨-, hresp, htaken⟩ := s.inv_iff.mp hinv
  refine (State.inv_iff _).mpr ⟨?_, by simp, ?_⟩
  · refine State.pendingOk_of_pendingCap_eq_none (Option.eq_none_iff_forall_ne_some.mpr fun m hp => ?_)
    obtain ⟨-, -, -, hn⟩ := State.pending_of_inv hinv hp
    simp [hr] at hn
  · rw [State.takeResponse_taken, List.forall_mem_append]
    exact ⟨htaken, by simpa using hresp r hr⟩

/-- Settles O47: a step is an accepted word, the block's progress, a taking, a reset or a move of the host's list, and each
keeps the invariant. -/
theorem stepKeepsInvariant : Obligations.StepKeepsInvariant := by
  intro s t hinv h
  rcases step_cases h with ⟨_, rest, -, hrdy, ha⟩ | ⟨hs, -, hb⟩ | ⟨_, _, -, hr, rfl⟩ | ⟨_, _, _, -, rfl⟩ | ⟨_, _, -, rfl⟩
  · exact accept_keeps_inv ha hrdy hinv
  · exact blockProgress_keeps_inv hb hinv
  · exact takeResponse_keeps_inv hr hinv
  · exact inv_of_not_pending hinv rfl rfl (by simp)
  · exact hinv

/-! ## The answer of a pending `CAP` (R72, R74) -/

/-- Settles O30: at the first attempt and at a later one the data is a residue of 63 bits. -/
theorem cappedDataIsBounded : Obligations.CappedDataIsBounded := by
  refine ⟨fun i m s t d hi hn h hd => ?_, fun m s t r hinv hp h hr => ?_⟩
  · rcases hi with rfl | rfl
    · obtain ⟨hm, rfl⟩ := exec_ucap_answer h hd
      exact toNat_residue_lt hm _
    · obtain ⟨hm, rfl, -⟩ := exec_cap_answer hn h hd
      exact toNat_residue_lt hm _
  · obtain ⟨-, -, hm, hn⟩ := State.pending_of_inv hinv hp
    obtain ⟨rfl, -⟩ := step_pending_answer hp hn h hr
    exact ⟨rfl, toNat_residue_lt (ne_zero_of_two_pow_63_lt hm) _⟩

/-- Settles O34: with `CFG.RBS = 1` the attempt that answers did not overflow. -/
theorem capAcceptsBelowTheLimit : Obligations.CapAcceptsBelowTheLimit := by
  refine ⟨fun m s t d hrbs hm hn h hd => ?_, fun m s t d hinv hp h hd => ?_⟩
  · obtain ⟨-, rfl, hacc⟩ := exec_cap_answer hn h hd
    exact residue_lt_of_not_overflowed hm (hacc.resolve_left (by simp [hrbs]))
  · obtain ⟨-, hrbs, hm, hn⟩ := State.pending_of_inv hinv hp
    obtain ⟨hr, hacc⟩ := step_pending_answer hp hn h hd
    obtain rfl : d = _ := congrArg Response.data hr
    exact residue_lt_of_not_overflowed hm (hacc.resolve_left (by simp [hrbs]))

end Sys2Proof.Machine
end

section
/-! PROOFS. The reroll loop of `CAP` (R72, R73): the step that accepts the command is one attempt, as if it were pending
already, so a run from it is a run of attempts. -/

namespace Sys2Proof.Machine

/-! ## A run of attempts -/

/-- `CAP m` is pending under `CFG.RBS = 1`, with no response and a host that waits: every step is an attempt. -/
structure Rerolling (m : Word) (s : State) : Prop where
  pending : s.pendingCap = some m
  noResponse : s.response = none
  rbs : s.cfgRbs = true
  waits : hostWaits s.host = true

theorem overflowsAfter_zero (m : Word) (p : Seeds) :
    overflowsAfter m 0 p = (sample (advanceOne p).2 m).overflowed := (rfl)

theorem overflowsAfter_succ (m : Word) (k : Nat) (p : Seeds) :
    overflowsAfter m (k + 1) p = overflowsAfter m k (advanceOne p).1 := (rfl)

theorem drawAfter_zero_advance (k : Nat) (p : Seeds) : drawAfter 0 (advance k p) = drawAfter k p := (rfl)

theorem overflowsAfter_zero_advance (m : Word) (k : Nat) (p : Seeds) :
    overflowsAfter m 0 (advance k p) = overflowsAfter m k p := (rfl)

theorem State.setSeeds_setSeeds (s : State) (p q : Seeds) : (s.setSeeds p).setSeeds q = s.setSeeds q := (rfl)

namespace Rerolling

variable {m : Word} {s : State}

theorem setSeeds (h : Rerolling m s) (p : Seeds) : Rerolling m (s.setSeeds p) :=
  ⟨h.pending, h.noResponse, h.rbs, h.waits⟩

theorem step_eq (h : Rerolling m s) : step s = .next (capAttempt m s) :=
  step_of_pending h.pending h.noResponse h.waits

/-- A rejected attempt only advances the seeds. -/
theorem step_of_overflows (h : Rerolling m s) (ho : overflowsAfter m 0 s.seeds = true) :
    step s = .next (s.setSeeds (advanceOne s.seeds).1) := by
  have hkeep (p : Seeds) : (s.setSeeds p).setPendingCap (some m) = s.setSeeds p := State.setPendingCap_self h.pending
  rw [h.step_eq, capAttempt_rejected m s ho h.rbs, hkeep]

/-- An accepted attempt answers. -/
theorem step_of_accepted (h : Rerolling m s) (ho : overflowsAfter m 0 s.seeds = false) :
    step s = .next (((s.setSeeds (advance 1 s.seeds)).setPendingCap none).respond .ok
      (drawAfter 0 s.seeds >>> 1 % m)) := by
  rw [h.step_eq, capAttempt_accepted m s (.inr ho)]
  rfl

/-- As long as every attempt is rejected, a run only advances the seeds (R73). -/
theorem run_of_overflows (h : Rerolling m s) (k : Nat) (ho : ∀ i, i < k → overflowsAfter m i s.seeds = true) :
    run k s = .next (s.setSeeds (advance k s.seeds)) := by
  induction k generalizing s with
  | zero => exact run_zero s
  | succ k ih =>
    have hrest (i : Nat) (hi : i < k) : overflowsAfter m i (s.setSeeds (advanceOne s.seeds).1).seeds = true := by
      rw [State.setSeeds_seeds, ← overflowsAfter_succ]
      exact ho (i + 1) (Nat.succ_lt_succ hi)
    rw [run_succ_of_step k (h.step_of_overflows (ho 0 (Nat.succ_pos k))), ih (h.setSeeds (advanceOne s.seeds).1) hrest,
      State.setSeeds_setSeeds, State.setSeeds_seeds, ← advance_succ]

/-- The first accepted attempt answers with the draw after the rejected ones (R72). -/
theorem run_of_first_accepted (h : Rerolling m s) (j : Nat)
    (ho : ∀ k, k < j → overflowsAfter m k s.seeds = true) (hacc : overflowsAfter m j s.seeds = false) :
    run (j + 1) s = .next (((s.setSeeds (advance (j + 1) s.seeds)).setPendingCap none).respond .ok
      (drawAfter j s.seeds >>> 1 % m)) := by
  have hacc' : overflowsAfter m 0 (s.setSeeds (advance j s.seeds)).seeds = false := by
    rwa [State.setSeeds_seeds, overflowsAfter_zero_advance]
  rw [run_add 1 (h.run_of_overflows j ho),
    run_succ_of_step 0 ((h.setSeeds (advance j s.seeds)).step_of_accepted hacc'), run_zero,
    State.setSeeds_setSeeds, State.setSeeds_seeds, advance_advance, drawAfter_zero_advance]

end Rerolling

/-! ## A `CAP` sent to a ready block -/

/-- An attempt does the same whether it is the first or a later one: it says itself whether the command is pending. -/
theorem capAttempt_setPendingCap (m : Word) (o : Option Word) (s : State) :
    capAttempt m (s.setPendingCap o) = capAttempt m s := (rfl)

section Sent

variable {m : Word} {rest : List HostEvent} {s : State} (hs : s.seeded = true) (hrbs : s.cfgRbs = true) (hm : m ≠ 0)
  (hrdy : s.cmdReady = true) (hh : s.host = .send (encode (.cap m)) :: rest) (hw : hostWaits rest = true)
include hrbs hrdy hw

/-- The block as it would be with the command pending already. -/
theorem rerolling_sent : Rerolling m ((s.setHost rest).setPendingCap (some m)) :=
  ⟨rfl, (s.cmdReady_iff.mp hrdy).2, hrbs, hw⟩

include hs hm hh

theorem run_succ_sent_cap (k : Nat) :
    run (k + 1) s = run (k + 1) ((s.setHost rest).setPendingCap (some m)) := by
  have hsend : step s = .next (capAttempt m (s.setHost rest)) := by
    rw [step_of_send_ready hh hrdy, accept_legal _ _ _ (decode_encode _), exec_cap_of_seeded (s := s.setHost rest) hs hm]
  rw [run_succ_of_step k hsend, run_succ_of_step k (rerolling_sent hrbs hrdy hw).step_eq, capAttempt_setPendingCap]

theorem run_sent_cap_of_overflows (k : Nat) (ho : ∀ i, i ≤ k → overflowsAfter m i s.seeds = true) :
    run (k + 1) s = .next (((s.setHost rest).setPendingCap (some m)).setSeeds (advance (k + 1) s.seeds)) := by
  rw [run_succ_sent_cap hs hrbs hm hrdy hh hw,
    (rerolling_sent hrbs hrdy hw).run_of_overflows (k + 1) fun i hi => ho i (Nat.le_of_lt_succ hi),
    State.setPendingCap_seeds, State.setHost_seeds]

theorem run_sent_cap_of_first_accepted (j : Nat) (ho : ∀ k, k < j → overflowsAfter m k s.seeds = true)
    (hacc : overflowsAfter m j s.seeds = false) :
    run (j + 1) s = .next
      (((s.setHost rest).setSeeds (advance (j + 1) s.seeds)).respond .ok (drawAfter j s.seeds >>> 1 % m)) := by
  have hclear (p : Seeds) : (((s.setHost rest).setPendingCap (some m)).setSeeds p).setPendingCap none =
      (s.setHost rest).setSeeds p :=
    State.setPendingCap_self (s := (s.setHost rest).setSeeds p) (s.cmdReady_iff.mp hrdy).1
  rw [run_succ_sent_cap hs hrbs hm hrdy hh hw, (rerolling_sent hrbs hrdy hw).run_of_first_accepted j ho hacc,
    hclear, State.setPendingCap_seeds, State.setHost_seeds]

end Sent

/-- Settles O35: a run of attempts up to the first accepted one. -/
theorem capCompletesAtFirstAccepted : Obligations.CapCompletesAtFirstAccepted := by
  intro m j rest s hs hrbs hm hrdy hh hw ho hacc
  rw [run_sent_cap_of_first_accepted hs hrbs hm hrdy hh hw j ho hacc, State.respond_setSeeds]
  rfl

/-- Settles O36: a run of rejected attempts. -/
theorem capStaysPendingWhileRejected : Obligations.CapStaysPendingWhileRejected := by
  intro m k rest s hs hrbs hm hrdy hh hw ho
  rw [run_sent_cap_of_overflows hs hrbs hm hrdy hh hw k ho]
  rfl

/-- Settles O37: the least accepted attempt answers; and if there is none, every run ends before the command or with it
pending, and without a response either way. -/
theorem capAnswersIffSomeAttemptAccepted : Obligations.CapAnswersIffSomeAttemptAccepted := by
  intro m rest s hs hrbs hm hrdy hh hw
  constructor
  · rintro ⟨k, t, r, hrun, hr⟩
    by_contra hnone
    have hall (i : Nat) : overflowsAfter m i s.seeds = true := by
      simpa using not_exists.mp hnone i
    have hn : s.response = none := (s.cmdReady_iff.mp hrdy).2
    cases k with
    | zero =>
      rw [run_zero] at hrun
      cases hrun
      simp [hn] at hr
    | succ k =>
      rw [run_sent_cap_of_overflows hs hrbs hm hrdy hh hw k fun i _ => hall i] at hrun
      cases hrun
      simp [hn] at hr
  · intro hex
    have hbefore (k : Nat) (hk : k < Nat.find hex) : overflowsAfter m k s.seeds = true := by
      simpa using Nat.find_min hex hk
    exact ⟨_, _, _, run_sent_cap_of_first_accepted hs hrbs hm hrdy hh hw _ hbefore (Nat.find_spec hex), rfl⟩

end Sys2Proof.Machine
end

section
/-! PROOFS. A host that keeps the straps (R91): whatever the block does then, its errors included, it answers a next state
whose host keeps the straps still (R82). -/

namespace Sys2Proof.Machine

/-- Out of reset the host drives the straps to the levels in force and to no others (R91). -/
def State.HostKeepsStraps (s : State) : Prop := strapsKept s.cfgSzs s.cfgRbs s.host = true

/-- The machine does not stop, and its next state has a host that keeps the straps. -/
def GoesOnKeepingStraps (o : Host.Outcome State Fault Refusal) : Prop := ∃ t, o = .next t ∧ t.HostKeepsStraps

theorem strapsKept_straps_iff {szs rbs a b : Bool} {rest : List HostEvent} :
    strapsKept szs rbs (.straps a b :: rest) = true ↔ (a = szs ∧ b = rbs) ∧ strapsKept szs rbs rest = true := by
  simp [strapsKept]

/-- What writes neither the straps nor the host's list leaves a host that keeps the straps. -/
theorem CommandFrame.hostKeepsStraps {s t : State} (hframe : CommandFrame s t) (hk : s.HostKeepsStraps) :
    t.HostKeepsStraps := by
  rw [State.HostKeepsStraps, hframe.cfgSzs, hframe.cfgRbs, hframe.host]
  exact hk

/-! ## What the port does at an event of such a host -/

theorem blockProgress_goesOnKeepingStraps {s : State} (hk : s.HostKeepsStraps) :
    GoesOnKeepingStraps (blockProgress s) := by
  obtain ⟨t, ht⟩ := blockProgress_next s
  exact ⟨t, ht, (blockProgress_frame ht).hostKeepsStraps hk⟩

theorem accept_goesOnKeepingStraps (w : CmdWord) {s : State} (hk : s.HostKeepsStraps) :
    GoesOnKeepingStraps (accept w s) := by
  obtain ⟨t, ht⟩ := accept_next w s
  exact ⟨t, ht, (accept_frame ht).hostKeepsStraps hk⟩

section Event

variable {s : State} {rest : List HostEvent} (hk : s.HostKeepsStraps) (hrest : (s.setHost rest).HostKeepsStraps)
include hk hrest

theorem onSend_goesOnKeepingStraps (w : CmdWord) : GoesOnKeepingStraps (onSend w rest s) := by
  cases hrdy : s.cmdReady with
  | true =>
    rw [onSend_ready w rest s hrdy]
    exact accept_goesOnKeepingStraps w hrest
  | false =>
    rw [onSend_busy w rest s hrdy]
    exact blockProgress_goesOnKeepingStraps hk

theorem onTake_goesOnKeepingStraps : GoesOnKeepingStraps (onTake rest s) := by
  cases hr : s.response with
  | some r =>
    rw [onTake_offered rest s r hr]
    exact ⟨_, rfl, hrest⟩
  | none =>
    cases hp : s.pendingCap with
    | some m =>
      rw [onTake_pending rest s m hr hp]
      exact ⟨_, rfl, (capAttempt_frame m s).hostKeepsStraps hk⟩
    | none =>
      rw [onTake_nothing rest s hr hp]
      exact ⟨_, rfl, hrest⟩

end Event

/-- Driven to the levels in force, the straps stop nothing (R91). -/
theorem onStraps_same (rest : List HostEvent) (s : State) :
    onStraps s.cfgSzs s.cfgRbs rest s = .next (s.setHost rest) := if_pos ⟨rfl, rfl⟩

/-- The one fault there is comes from a strap driven to another level, which this host does not do; and after a reset the
rest of its list keeps the levels that the reset brought. -/
theorem step_goesOnKeepingStraps {s : State} (hk : s.HostKeepsStraps) : GoesOnKeepingStraps (step s) := by
  have hkept : strapsKept s.cfgSzs s.cfgRbs s.host = true := hk
  cases hh : s.host with
  | nil =>
    rw [step_of_host_nil s hh]
    exact blockProgress_goesOnKeepingStraps hk
  | cons e rest =>
    rw [hh] at hkept
    cases e with
    | send w =>
      rw [step_of_send s w rest hh]
      exact onSend_goesOnKeepingStraps (rest := rest) hk hkept w
    | take =>
      rw [step_of_take s rest hh]
      exact onTake_goesOnKeepingStraps hk hkept
    | reset a b =>
      rw [step_of_reset s a b rest hh]
      exact ⟨_, rfl, hkept⟩
    | straps a b =>
      obtain ⟨⟨rfl, rfl⟩, hrest⟩ := strapsKept_straps_iff.mp hkept
      rw [step_of_straps s _ _ rest hh, onStraps_same]
      exact ⟨_, rfl, hrest⟩
    | idle =>
      rw [step_of_idle s rest hh]
      exact blockProgress_goesOnKeepingStraps (s := s.setHost rest) hkept

/-- Settles O46, by induction on the number of steps: each goes on to a state with a host that keeps the straps. -/
theorem strapKeepingHostNeverStops : Obligations.StrapKeepingHostNeverStops := by
  intro k s hk
  induction k generalizing s with
  | zero => exact ⟨s, run_zero s, hk⟩
  | succ k ih =>
    obtain ⟨u, hu, hku⟩ := step_goesOnKeepingStraps hk
    rw [run_succ_of_step k hu]
    exact ih u hku

end Sys2Proof.Machine
end

section
/-! PROOFS. The errors (R76 to R80, R83): which words raise which exception, in which order, and that an exception writes
nothing. -/

namespace Sys2Proof.Machine

/-! ## Unseeded draws (R79) -/

/-- Each draw command checks `seeded` before anything else. -/
theorem exec_draw_of_unseeded {i : Instr} {s : State} (hi : 0x30 ≤ i.opcode.toNat) (hs : s.seeded = false) :
    exec i s = .next (s.raise .unseeded) := by
  cases i with
  | hash _ | ihash _ | seedpair _ _ | seed _ | seed0 _ | seed1 _ => simp [Instr.opcode] at hi
  | next => rw [exec_next_eq, s.ifSeeded_unseeded _ hs]
  | adv n => rw [exec_adv_eq, s.ifSeeded_unseeded _ hs]
  | ucap m => rw [exec_ucap_eq, s.ifSeeded_unseeded _ hs]
  | cap m => rw [exec_cap_eq, s.ifSeeded_unseeded _ hs]

/-- Settles O38: each of the four raises `Unseeded`, which writes the response alone. -/
theorem unseededDrawsAnswerUnseeded : Obligations.UnseededDrawsAnswerUnseeded := by
  intro i s hi hs
  rw [exec_draw_of_unseeded hi hs, State.raise_eq]
  rfl

/-! ## Illegal words (R38, R78) -/

/-- A word that no row accepts is the encoding of no command, so the decoder refuses it. -/
theorem exists_decode_eq_error {w : CmdWord} (hw : w.wellFormed = false) : ∃ e, decode w = .error e := by
  cases hd : decode w with
  | error e => exact ⟨e, rfl⟩
  | ok i => simp [(decodeAgreesWithMaskTable w).mp ⟨i, hd⟩] at hw

/-- An illegal word raises `IllegalCommand` in every state. -/
theorem accept_of_not_wellFormed {w : CmdWord} (hw : w.wellFormed = false) (s : State) :
    accept w s = .next (s.raise .illegalCommand) := by
  obtain ⟨e, he⟩ := exists_decode_eq_error hw
  exact accept_illegal w e s he

/-- Every word accepted with no response waiting raises `IllegalCommand`, being illegal; raises another exception; or gives
no response that is not OK (R76, R82). -/
theorem accept_raises_or_ok {w : CmdWord} {s t : State} (h : accept w s = .next t) (hn : s.response = none) :
    (w.wellFormed = false ∧ t = s.raise .illegalCommand) ∨ (∃ e, e ≠ .illegalCommand ∧ t = s.raise e) ∨
      ∀ r, t.response = some r → r.status = .ok := by
  cases hw : w.wellFormed with
  | false =>
    rw [accept_of_not_wellFormed hw s] at h
    cases h
    exact .inl ⟨rfl, rfl⟩
  | true =>
    obtain ⟨i, rfl⟩ := exists_encode_of_wellFormed hw
    rw [accept_legal _ i s (decode_encode i)] at h
    rcases exec_raises_or_ok h hn with ⟨-, ht⟩ | ⟨-, -, ht⟩ | ⟨-, hok⟩
    · exact .inr (.inl ⟨.unseeded, by decide, ht⟩)
    · exact .inr (.inl ⟨.divisionByZero, by decide, ht⟩)
    · exact .inr (.inr hok)

/-- Only `IllegalCommand` has the status `ILLEGAL` (R76). -/
theorem Exception.status_eq_illegal_iff (e : Exception) : e.status = .illegal ↔ e = .illegalCommand := by
  cases e <;> decide

/-- Settles O6: the ready block accepts the word, which the decoder refuses; and a legal word raises only other exceptions. -/
theorem illegalWordsAnswerIllegal : Obligations.IllegalWordsAnswerIllegal := by
  refine ⟨fun w rest s hh hrdy hw => ?_, fun w s t d hn h hd => ?_⟩
  · rw [step_of_send_ready hh hrdy, accept_of_not_wellFormed hw, State.raise_eq]
    rfl
  · rcases accept_raises_or_ok h hn with ⟨hw, -⟩ | ⟨e, he, rfl⟩ | hok
    · exact hw
    · rw [State.raise_response, Option.some_inj, Response.mk.injEq] at hd
      exact absurd ((e.status_eq_illegal_iff).mp hd.1) he
    · cases hok _ hd

/-! ## What an error writes (R83) -/

/-- An exception writes the response alone, and its data is 0 (R82). -/
theorem State.raise_writes_response {s : State} {e : Exception} {r : Response} (hr : (s.raise e).response = some r) :
    r.data = 0 ∧ s.raise e = { s with response := some r } := by
  cases hr
  exact ⟨rfl, State.raise_eq s e⟩

/-- Settles O40: a response that is not OK is that of an exception. -/
theorem errorsWriteNothing : Obligations.ErrorsWriteNothing := by
  intro w s t r hn h hr hstatus
  rcases accept_raises_or_ok h hn with ⟨-, rfl⟩ | ⟨e, -, rfl⟩ | hok
  · exact State.raise_writes_response hr
  · exact State.raise_writes_response hr
  · exact absurd (hok r hr) hstatus

/-! ## The order of the checks (R80) -/

/-- With a modulus of zero both samplers check `seeded` and then raise `DivisionByZero` (R70). -/
theorem exec_sampler_zero {mk : Word → Instr} (hmk : mk = .ucap ∨ mk = .cap) (s : State) :
    exec (mk 0) s = .next (s.ifSeeded (s.raise .divisionByZero)) := by
  rcases hmk with rfl | rfl
  · rw [exec_ucap_eq, State.ifModulus_zero]
  · rw [exec_cap_eq, State.ifModulus_zero]

/-- The rows of the samplers are of format A (R37). -/
theorem exists_decodeFields_sampler {op : BitVec 8} (hop : op = 0x40 ∨ op = 0x41) (a b : Word) :
    ∃ mk : Word → Instr, (mk = .ucap ∨ mk = .cap) ∧ decodeFields op a b = decodeA mk a b := by
  rcases hop with rfl | rfl
  · exact ⟨.ucap, .inl rfl, rfl⟩
  · exact ⟨.cap, .inr rfl, rfl⟩

/-- The decoder checks `B`, then the sampler checks `seeded`, then the modulus. -/
theorem accept_sampler_zero {op : BitVec 8} (hop : op = 0x40 ∨ op = 0x41) (b : Word) (s : State) :
    accept (packWord op 0 b) s = .next (s.raise
      (if b ≠ 0 then .illegalCommand else if s.seeded = false then .unseeded else .divisionByZero)) := by
  obtain ⟨mk, hmk, hrow⟩ := exists_decodeFields_sampler hop 0 b
  have hdecode : decode (packWord op 0 b) = decodeA mk 0 b := (decode_packWord op 0 b).trans hrow
  split_ifs with hb hs
  · exact accept_illegal _ _ s (hdecode.trans (if_neg hb))
  · rw [accept_legal _ _ s (hdecode.trans (if_pos (not_not.mp hb))), exec_sampler_zero hmk, s.ifSeeded_unseeded _ hs]
  · rw [accept_legal _ _ s (hdecode.trans (if_pos (not_not.mp hb))), exec_sampler_zero hmk,
      s.ifSeeded_of _ (Bool.eq_true_of_not_eq_false hs)]

/-- Settles O41: the exception of each check has that check's status, and writes the response alone. -/
theorem checksComeInOrder : Obligations.ChecksComeInOrder := by
  refine ⟨fun w s hw => ?_, fun op b s hop => ?_⟩
  · rw [accept_of_not_wellFormed hw, State.raise_eq]
    rfl
  · rw [accept_sampler_zero hop, State.raise_eq, apply_ite Exception.status, apply_ite Exception.status]
    rfl

end Sys2Proof.Machine
end

section
/-! PROOFS. Reset and the handshake (R88 to R93, R99): a reset whatever was in progress, straps driven out of reset, what a
block does with a word held out or a host ready to take, and what keeps a response offered and an idle block unchanged. -/

namespace Sys2Proof.Machine

/-! ## Reset (R88, R89) -/

theorem State.resetNext_iff (s : State) : s.resetNext = true ↔ ∃ a b rest, s.host = .reset a b :: rest := by
  constructor
  · intro h
    cases hh : s.host with
    | nil => simp [State.resetNext, hh] at h
    | cons e rest =>
      cases e with
      | reset a b => exact ⟨a, b, rest, rfl⟩
      | send _ | take | straps _ _ | idle => simp [State.resetNext, hh] at h
  · rintro ⟨_, _, _, hh⟩
    exact resetNext_of_reset hh

/-- Of the state before it a reset keeps the responses taken, the count of resets and the rest of the host's list alone. -/
theorem sameToHost_applyReset (a b : Bool) (rest : List HostEvent) {s t : State} (htaken : s.taken = t.taken)
    (hresets : s.resets = t.resets) :
    SameToHost ((s.applyReset a b).setHost rest) ((t.applyReset a b).setHost rest) := by
  simp [SameToHost, htaken, hresets]

/-- Settles O51: the two states after the reset agree in all that the reset writes and in all that it keeps. -/
theorem resetForgetsProgress : Obligations.ResetForgetsProgress := by
  intro s t hreset hhost htaken hresets
  obtain ⟨a, b, rest, hs⟩ := s.resetNext_iff.mp hreset
  rw [step_of_reset s a b rest hs, step_of_reset t a b rest (hhost ▸ hs)]
  exact sameToHost_applyReset a b rest htaken hresets

/-- Settles O50: the state after the reset, field by field; with nothing pending and no response it is ready. -/
theorem resetDropsEverything : Obligations.ResetDropsEverything := by
  intro a b rest s hh
  have hready : ((s.applyReset a b).setHost rest).cmdReady = true := (State.cmdReady_iff _).mpr ⟨rfl, rfl⟩
  exact ⟨_, step_of_reset s a b rest hh, rfl, rfl, rfl, hready, rfl, rfl, rfl, rfl⟩

/-! ## Straps out of reset (R91, U3) -/

theorem onStraps_changed {a b : Bool} {s : State} (h : a ≠ s.cfgSzs ∨ b ≠ s.cfgRbs) (rest : List HostEvent) :
    onStraps a b rest s = .fault .strapsChangedOutOfReset := if_neg (not_and_or.mpr h)

/-- Settles O45. -/
theorem strapChangeStops : Obligations.StrapChangeStops := by
  intro a b rest s hh hne
  rw [step_of_straps s a b rest hh, onStraps_changed hne]

/-! ## A word held out (R92, R93) -/

/-- A block that is not ready goes on by itself, whatever word is held out to it. -/
theorem step_of_send_busy {s : State} {w : CmdWord} {rest : List HostEvent} (hh : s.host = .send w :: rest)
    (hs : s.cmdReady = false) : step s = blockProgress s := by
  rw [step_of_send s w rest hh, onSend_busy w rest s hs]

/-- After an attempt the `CAP` is pending or has answered OK, whatever response was there before (R72). -/
theorem capAttempt_pending_or_ok (m : Word) (s : State) :
    (capAttempt m s).pendingCap = some m ∨
      ((capAttempt m s).pendingCap = none ∧ ∃ d, (capAttempt m s).response = some ⟨.ok, d⟩) := by
  rcases capAttempt_cases m s with ⟨-, -, hrejected⟩ | ⟨-, haccepted⟩
  · exact .inl (by rw [hrejected, State.setPendingCap_pendingCap])
  · exact .inr (by simp [haccepted])

/-- Settles O54: accepting a legal word is executing its command. -/
theorem stepRunsSentCommand : Obligations.StepRunsSentCommand := by
  intro w i rest s hh hs hd
  rw [step_of_send_ready hh hs, accept_legal w i _ hd]
  rfl

/-- Settles O55: the step is the block's own progress, which is an attempt of the pending `CAP` or nothing. -/
theorem busyBlockAcceptsNothing : Obligations.BusyBlockAcceptsNothing := by
  intro w rest s hh hs
  rw [step_of_send_busy hh hs]
  cases hp : s.pendingCap with
  | none => exact ⟨s, blockProgress_idle s hp, rfl, rfl, fun _ => rfl, nofun⟩
  | some m =>
    obtain ⟨-, -, hhost, htaken, -⟩ := capAttempt_frame m s
    refine ⟨capAttempt m s, blockProgress_pending s m hp, hhost, htaken, nofun, fun m' hm => ?_⟩
    cases hm
    exact ⟨rfl, capAttempt_pending_or_ok m s⟩

/-! ## Taking and keeping a response (R92) -/

/-- Settles O56: a taking of the response offered; an attempt of the pending `CAP`, which leaves the host's list and the
responses taken; or a move of the host's list. -/
theorem takingDeliversResponse : Obligations.TakingDeliversResponse := by
  intro rest s hh
  refine ⟨fun r hr => step_of_take_offered hh hr, fun m hn hp => ?_, fun hn hp => ?_⟩
  · have hwaits : hostWaits s.host = true := by rw [hh, hostWaits]
    exact ⟨step_of_pending hp hn hwaits, (capAttempt_frame m s).host, (capAttempt_frame m s).taken⟩
  · rw [step_of_take s rest hh, onTake_nothing rest s hn hp]
    rfl

/-- No response waits beside a pending `CAP` (R93). -/
theorem State.pendingCap_eq_none_of_response {s : State} {r : Response} (hinv : s.inv = true)
    (hr : s.response = some r) : s.pendingCap = none := by
  refine Option.eq_none_iff_forall_ne_some.mpr fun m hp => ?_
  obtain ⟨-, -, -, hn⟩ := State.pending_of_inv hinv hp
  simp [hr] at hn

/-- With a response offered and no `CAP` pending, a step that is neither a taking nor a reset moves the host's list and does
nothing to the block: it is not ready for a word (R93), and has no progress to make. -/
theorem step_of_offered {r : Response} {s t : State} (hp : s.pendingCap = none) (hr : s.response = some r)
    (hreset : s.resetNext = false) (htake : ∀ rest, s.host ≠ .take :: rest) (h : step s = .next t) :
    ∃ rest, t = s.setHost rest := by
  rcases step_cases h with ⟨_, _, -, hrdy, -⟩ | ⟨hs, -, hb⟩ | ⟨_, rest, hh, -, -⟩ | ⟨_, _, _, hh, -⟩ | ⟨_, rest, -, ht⟩
  · simp [(s.cmdReady_iff.mp hrdy).2] at hr
  · rw [blockProgress_idle (s.setHost hs) hp] at hb
    cases hb
    exact ⟨hs, rfl⟩
  · exact absurd hh (htake rest)
  · simp [resetNext_of_reset hh] at hreset
  · exact ⟨rest, ht⟩

/-- Settles O57: by the invariant no `CAP` is pending beside the response, so the step only moves the host's list. -/
theorem responseHeldUntilTaken : Obligations.ResponseHeldUntilTaken := by
  intro r s t hinv hr hreset htake h
  obtain ⟨rest, rfl⟩ := step_of_offered (State.pendingCap_eq_none_of_response hinv hr) hr hreset htake h
  exact ⟨hr, State.rspValid_of_response (s := s.setHost rest) hr, rfl⟩

/-! ## An idle block (R99) -/

theorem step_of_silent_idle {s : State} (hh : s.host = []) (hp : s.pendingCap = none) : step s = .next s := by
  rw [step_of_host_nil s hh, blockProgress_idle s hp]

/-- Settles O60, by induction on the number of steps. -/
theorem idleBlockDoesNotChange : Obligations.IdleBlockDoesNotChange := by
  intro k s hh hp
  induction k with
  | zero => exact run_zero s
  | succ k ih => rw [run_succ_of_step k (step_of_silent_idle hh hp), ih]

end Sys2Proof.Machine
end
